-- ==== Sys2Proof/Word.lean ====
section
/-! DEFINITION. The words of the CM3 core: bytes of code memory, 32-bit register and memory words (R5, R35), and the
5-bit register index of an operand field (R18). Every value is unsigned (R13). -/

namespace Sys2Proof

/-- One byte of code memory (R30). -/
abbrev Byte := BitVec 8

/-- One register, data-memory word, counter, pc or instruction word: 32 bits, unsigned (R5, R9, R31, R52). -/
abbrev Word := BitVec 32

/-- A register index: a 5-bit field, so always in [0, 31] (R18). -/
abbrev RegIdx := BitVec 5

end Sys2Proof
end

