-- ==== Sys2Proof/Config.lean ====
section
/-! DEFINITION. The parameters a run is configured with (R6, R8, R10, R32) and the fixed limits of the block. The spec
leaves no value open, so there is no free value here. -/

namespace Sys2Proof

/-- The configuration latched by the reset of a run and fixed until its end (R32, R119). -/
structure RunConfig where
  /-- N = DMEM_WORDS, the number of 32-bit words of data memory (R6). -/
  dmemWords : Nat
  /-- RSV_CHECK: whether the decoder rejects words with a reserved bit set (R8). -/
  rsvCheck : Bool
  /-- MAX_STEPS, the step ceiling (R10). -/
  maxSteps : Nat
  deriving DecidableEq, Repr

/-- The number of general registers (R5). -/
abbrev Config.nreg : Nat := 32

/-- The default of DMEM_WORDS (R6). -/
abbrev Config.defaultDmemWords : Nat := 1024

/-- The largest legal DMEM_WORDS (R6, D12). -/
abbrev Config.maxDmemWords : Nat := 2 ^ 32

/-- The default of RSV_CHECK (R8). -/
abbrev Config.defaultRsvCheck : Bool := false

/-- The code length must stay below this (R7, D4). -/
abbrev Config.codeLimit : Nat := 2 ^ 32

/-- The MAX_STEPS of `State.reset`. DESIGN CHOICE (log entry 1): the spec gives the ceiling no default. 2^30 is never
reached by a run (R27, R87), as 95_test_vectors.md's convention asks. Unsafe: a host may supply a smaller one. -/
abbrev Config.resetMaxSteps : Nat := 2 ^ 30

/-- The configuration of `State.reset`: the spec's defaults and the ceiling of log entry 1. -/
def RunConfig.default : RunConfig :=
  { dmemWords := Config.defaultDmemWords
    rsvCheck := Config.defaultRsvCheck
    maxSteps := Config.resetMaxSteps }

end Sys2Proof
end

