-- ==== Sys2Proof/Syntax.lean ====
section
/-! DEFINITION. The syntax of the CM3 core: the four instructions (R58), the two formats (R53, R54), the encoder's
intermediate command (R66), and the error kinds of decoding and validation (R99, R100). -/

namespace Sys2Proof

/-- The two instruction formats, chosen by the opcode alone (R56). -/
inductive Format where
  /-- The immediate family: LOAD_CONST (R53). -/
  | I
  /-- The register family: READ_MEM, WRITE_MEM, ABS (R54). -/
  | R
  deriving DecidableEq, Repr

/-- The closed opcode set (R58). -/
inductive Opcode where
  | loadConst
  | readMem
  | writeMem
  | abs
  deriving DecidableEq, Repr

/-- One constructor per row of spec/opcode_table.json, with the operand fields B and C in that order: a union tagged
by opcode identity (R56). -/
inductive Instr where
  /-- LOAD_CONST B, rC: B the 20-bit constant, C the destination (R90). -/
  | loadConst (b : BitVec 20) (c : RegIdx)
  /-- READ_MEM rB, rC: B the destination, C the address register (R93). -/
  | readMem (b c : RegIdx)
  /-- WRITE_MEM rB, rC: B the address register, C the source (R94). -/
  | writeMem (b c : RegIdx)
  /-- ABS rB, rC: neither register is used (R95). -/
  | abs (b c : RegIdx)
  deriving DecidableEq, Repr

/-- The intermediate command of the toolchain encoder: integers, so operands can be out of range or negative (R66). -/
structure Command where
  opcode : Int
  b : Int
  c : Int
  deriving DecidableEq, Repr

/-- The front-end's names for LOAD_CONST: `value` is B, `register` is C (R66). -/
def Command.loadConst (value register : Int) : Command := ⟨29, value, register⟩

/-- The front-end's names for READ_MEM: `dest_register` is B, `addr_register` is C (R66). -/
def Command.readMem (destRegister addrRegister : Int) : Command := ⟨18, destRegister, addrRegister⟩

/-- The front-end's names for WRITE_MEM: `addr_register` is B, `src_register` is C (R66). -/
def Command.writeMem (addrRegister srcRegister : Int) : Command := ⟨9, addrRegister, srcRegister⟩

/-- The front-end's names for ABS: `addr_register` is B, `src_register` is C (R66). -/
def Command.abs (addrRegister srcRegister : Int) : Command := ⟨25, addrRegister, srcRegister⟩

/-- The reasons of a ValidationError. Raised by the toolchain encoder at assembly time (R67, R99); safe: nothing is
emitted. -/
inductive ValidationError where
  /-- The opcode is not in the closed set. -/
  | invalidOpcode
  /-- B or C lies outside its family's range. -/
  | operandOutOfRange
  deriving DecidableEq, Repr

/-- The kinds of a DecodeError (R100). The block halts the run on one (R80). -/
inductive DecodeError where
  /-- w[5:0] is none of 9, 18, 25, 29 (R59). -/
  | invalidOpcode
  /-- The chunk given to a stand-alone decoder is not 4 bytes (R65): never raised in the block. -/
  | malformedInstruction
  /-- RSV_CHECK is set and a reserved bit is 1 (R60). -/
  | reservedBits
  deriving DecidableEq, Repr

end Sys2Proof
end

