-- ==== Sys2Proof/WellFormed.lean ====
section
/-! DEFINITION. `validate` of the intermediate command (R67, R68), and the well-formedness of an instruction. The fields
of `Instr` have exactly their encoded widths, so every instruction is well formed: the check that can fail is the one
over the command's integers. -/

namespace Sys2Proof

/-- The family of an opcode number, none outside the closed set (R56, R58, R67 (1)). -/
def formatOfCode (n : Int) : Option Format :=
  if n = 29 then some .I
  else if n = 18 ∨ n = 9 ∨ n = 25 then some .R
  else none

/-- The declared width in bits of field B, by family (R53, R54, R67 (2)). -/
def Format.bWidth : Format → Nat
  | .I => 20
  | .R => 5

/-- The declared width in bits of field C, the same in both families (R53, R54, R67 (2)). -/
def Format.cWidth : Format → Nat
  | .I => 5
  | .R => 5

/-- An operand fits an unsigned field of `width` bits; a negative one fits none (R67, D16). -/
def fitsWidth (width : Nat) : Int → Bool
  | .ofNat n => decide (n < 2 ^ width)
  | .negSucc _ => false

/-- `validate(opcode, operands)`: the opcode first, then the ranges of B and C (R67). -/
def Command.validate (cmd : Command) : Except ValidationError Format :=
  match formatOfCode cmd.opcode with
  | none => .error .invalidOpcode
  | some f =>
    if fitsWidth f.bWidth cmd.b && fitsWidth f.cWidth cmd.c then .ok f
    else .error .operandOutOfRange

/-- The command a decoded instruction stands for: its opcode number and its operands as integers (R66). -/
def Instr.toCommand : Instr → Command
  | .loadConst b c => ⟨29, (b.toNat : Int), (c.toNat : Int)⟩
  | .readMem b c => ⟨18, (b.toNat : Int), (c.toNat : Int)⟩
  | .writeMem b c => ⟨9, (b.toNat : Int), (c.toNat : Int)⟩
  | .abs b c => ⟨25, (b.toNat : Int), (c.toNat : Int)⟩

/-- An instruction is well formed when its command passes validation. -/
def Instr.wellFormed (i : Instr) : Bool :=
  match i.toCommand.validate with
  | .ok _ => true
  | .error _ => false

end Sys2Proof
end

