-- ==== Sys2Proof/Decode.lean ====
section
/-! DEFINITION. The decoder (R52 to R65) and, after it, the toolchain encoder (R66 to R71). The decoder is total on 32-bit
words and on byte chunks, and rejects by the name of the decode error. -/

namespace Sys2Proof

/-- The little-endian assembly of an instruction word from its bytes in code order (R36, GK1). -/
def wordOfBytes (b0 b1 b2 b3 : Byte) : Word := b3 ++ b2 ++ b1 ++ b0

/-- The four bytes of a word in code order (R36, R69). -/
def bytesOfWord (w : Word) : List Byte :=
  [w.extractLsb' 0 8, w.extractLsb' 8 8, w.extractLsb' 16 8, w.extractLsb' 24 8]

/-- The opcode field, field A (R53, R54, R55). -/
def opField (w : Word) : BitVec 6 := w.extractLsb' 0 6

/-- The 6-bit code of an opcode (R58). -/
def Opcode.code : Opcode → BitVec 6
  | .loadConst => 29
  | .readMem => 18
  | .writeMem => 9
  | .abs => 25

/-- The opcode a 6-bit field names, none for the 60 invalid values (R58, R59). -/
def opcodeOfBits (a : BitVec 6) : Option Opcode :=
  if a = 29 then some .loadConst
  else if a = 18 then some .readMem
  else if a = 9 then some .writeMem
  else if a = 25 then some .abs
  else none

/-- The format an opcode selects (R56). -/
def Opcode.format : Opcode → Format
  | .loadConst => .I
  | .readMem => .R
  | .writeMem => .R
  | .abs => .R

/-- One row of the `fieldLayout` table: a mask and a shift per field, and the mask of the reserved bits (R55). -/
structure FieldLayout where
  aMask : Word
  aShift : Nat
  bMask : Word
  bShift : Nat
  cMask : Word
  cShift : Nat
  reservedMask : Word
  deriving DecidableEq, Repr

/-- `fieldLayout`, by format (R55). -/
def fieldLayout : Format → FieldLayout
  | .I => ⟨0x3F, 0, 0xFFFFF, 6, 0x1F, 26, 0x80000000⟩
  | .R => ⟨0x3F, 0, 0x1F, 6, 0x1F, 11, 0xFFFF0000⟩

/-- Whether a reserved bit of the word is set: w[31] in format I, w[31:16] in format R (R60). -/
def reservedSet (f : Format) (w : Word) : Bool :=
  match f with
  | .I => w.extractLsb' 31 1 != 0
  | .R => w.extractLsb' 16 16 != 0

/-- The operand extraction of a word whose opcode is known (R53, R54, R57). -/
def extractFields (op : Opcode) (w : Word) : Instr :=
  match op with
  | .loadConst => .loadConst (w.extractLsb' 6 20) (w.extractLsb' 26 5)
  | .readMem => .readMem (w.extractLsb' 6 5) (w.extractLsb' 11 5)
  | .writeMem => .writeMem (w.extractLsb' 6 5) (w.extractLsb' 11 5)
  | .abs => .abs (w.extractLsb' 6 5) (w.extractLsb' 11 5)

/-- `Decode(w, RSV_CHECK)`: the opcode, then the layout, then the reserved bits, then the fields (R62). The re-validation
of R63 cannot fail on fields of the exact widths, and is no branch here. DEDUCED (log entry 9, safe). -/
def decodeWord (rsvCheck : Bool) (w : Word) : Except DecodeError Instr :=
  match opcodeOfBits (opField w) with
  | none => .error .invalidOpcode
  | some op =>
    if rsvCheck && reservedSet op.format w then .error .reservedBits
    else .ok (extractFields op w)

/-- The stand-alone decoder on a chunk of bytes, which must be exactly 4 (R65, K9). -/
def decodeChunk (rsvCheck : Bool) (chunk : List Byte) : Except DecodeError Instr :=
  match chunk with
  | [b0, b1, b2, b3] => decodeWord rsvCheck (wordOfBytes b0 b1 b2 b3)
  | _ => .error .malformedInstruction

/-- The 2-bit `dec_kind` code of a decode error (R100, D10). -/
def DecodeError.kindCode : DecodeError → BitVec 2
  | .invalidOpcode => 0
  | .malformedInstruction => 1
  | .reservedBits => 2

/-- The decoder's outputs when `dec_ok` = 1 (R11, R64). -/
structure DecoderFields where
  /-- dec_op -/
  op : BitVec 6
  /-- dec_fmt -/
  fmt : Format
  /-- dec_b, 20 bits; in format R the upper 15 are 0 -/
  b : BitVec 20
  /-- dec_c -/
  c : BitVec 5
  deriving DecidableEq, Repr

/-- The outputs dec_op, dec_fmt, dec_b, dec_c of a decoded instruction (R64). -/
def Instr.decoderFields : Instr → DecoderFields
  | .loadConst b c => ⟨29, .I, b, c⟩
  | .readMem b c => ⟨18, .R, b.setWidth 20, c⟩
  | .writeMem b c => ⟨9, .R, b.setWidth 20, c⟩
  | .abs b c => ⟨25, .R, b.setWidth 20, c⟩

/-- The decoder's port: `.ok` is dec_ok = 1 with the outputs, `.error` is dec_ok = 0 with dec_err (R11, R64). -/
def decoderPort (rsvCheck : Bool) (w : Word) : Except DecodeError DecoderFields :=
  (decodeWord rsvCheck w).map Instr.decoderFields

/-! ### The encoder (toolchain) -/

/-- The word of an instruction: each field at its bits, the reserved bits 0 (R53, R54, R69). -/
def encodeWord : Instr → Word
  | .loadConst b c => (0 : BitVec 1) ++ c ++ b ++ Opcode.loadConst.code
  | .readMem b c => (0 : BitVec 16) ++ c ++ b ++ Opcode.readMem.code
  | .writeMem b c => (0 : BitVec 16) ++ c ++ b ++ Opcode.writeMem.code
  | .abs b c => (0 : BitVec 16) ++ c ++ b ++ Opcode.abs.code

/-- The encoder: the bytes of an instruction in code order (R69). -/
def encode (i : Instr) : List Byte := bytesOfWord (encodeWord i)

/-- The instruction a validated command stands for. -/
def instrOfCommand (cmd : Command) : Instr :=
  if cmd.opcode = 29 then .loadConst (BitVec.ofInt 20 cmd.b) (BitVec.ofInt 5 cmd.c)
  else if cmd.opcode = 18 then .readMem (BitVec.ofInt 5 cmd.b) (BitVec.ofInt 5 cmd.c)
  else if cmd.opcode = 9 then .writeMem (BitVec.ofInt 5 cmd.b) (BitVec.ofInt 5 cmd.c)
  else .abs (BitVec.ofInt 5 cmd.b) (BitVec.ofInt 5 cmd.c)

/-- `encode(command)`: validate, then pack (R69). -/
def encodeCommand (cmd : Command) : Except ValidationError (List Byte) :=
  match cmd.validate with
  | .error e => .error e
  | .ok _ => .ok (encode (instrOfCommand cmd))

/-- The validation failure that a list of commands reports, none if every command passes. Where several commands fail, R70
gives no reason to report: the model takes the first in input order. DESIGN CHOICE (log entry 19, unsafe). -/
def firstInvalid : List Command → Option ValidationError
  | [] => none
  | cmd :: rest =>
    match cmd.validate with
    | .error e => some e
    | .ok _ => firstInvalid rest

/-- `encodeProgram(commands)`: every command is validated before any byte is written; then the words in input order
(R70). Which failure it reports is `firstInvalid`'s choice (log entry 19). -/
def encodeProgram (cmds : List Command) : Except ValidationError (List Byte) :=
  match firstInvalid cmds with
  | some e => .error e
  | none => .ok (cmds.flatMap fun cmd => encode (instrOfCommand cmd))

/-- A register operand as the spec's listings write it (R72). -/
def listingReg (r : RegIdx) : String := "r" ++ toString r.toNat

/-- An instruction as the spec's listings write it, operands in the order B, C (R72, D15). -/
def Instr.listing : Instr → String
  | .loadConst b c => "LOAD_CONST " ++ toString b.toNat ++ ", " ++ listingReg c
  | .readMem b c => "READ_MEM " ++ listingReg b ++ ", " ++ listingReg c
  | .writeMem b c => "WRITE_MEM " ++ listingReg b ++ ", " ++ listingReg c
  | .abs b c => "ABS " ++ listingReg b ++ ", " ++ listingReg c

/-- The instruction the decoder reads from the table's bits: the word is laid out in code order and given to the decoder,
with RSV_CHECK at its default (R8). -/
def decodeTableWord (nbits w : Nat) : Option Instr :=
  (decodeChunk Config.defaultRsvCheck (bytesOfWord (BitVec.ofNat 32 (w % 2 ^ nbits)))).toOption

end Sys2Proof
end

