-- ==== Sys2Proof/Machine/State.lean ====
section
/-! DEFINITION. The architectural state (R33 says the list is complete), its reset (R119, R120), and the reasons a step
can stop. -/

namespace Sys2Proof.Machine

/-- The run state; `halted` is the document's halted flag (R23, R29). -/
inductive RunState where
  | running
  | halted
  deriving DecidableEq, Repr

/-- The causes of a run's end (R102). Codes 6 and 7 are never used. -/
inductive HaltCause where
  /-- 0 NONE: the run has not ended. -/
  | none
  /-- 1 END_OF_PROGRAM (R76). -/
  | endOfProgram
  /-- 2 MALFORMED_TAIL (R77). -/
  | malformedTail
  /-- 3 DECODE_ERROR (R80). -/
  | decodeError
  /-- 4 OUT_OF_BOUNDS (R82). -/
  | outOfBounds
  /-- 5 STEP_CEILING (R86). -/
  | stepCeiling
  deriving DecidableEq, Repr

/-- The halt record (R24). -/
structure HaltRecord where
  /-- `cause`, 3 bits as HaltCause.code gives them (R102). -/
  cause : HaltCause
  /-- `dec_kind` (R100). -/
  decKind : BitVec 2
  /-- `step_index` (R103). -/
  stepIndex : Word
  /-- `fault_pc` (R104). -/
  faultPc : Word
  /-- `fault_info` (R105). -/
  faultInfo : Word
  deriving DecidableEq, Repr

/-- The halt record of a run that has not ended (R24, R120). -/
def HaltRecord.empty : HaltRecord :=
  { cause := .none, decKind := 0, stepIndex := 0, faultPc := 0, faultInfo := 0 }

/-- The three counters (R25). -/
structure Counters where
  /-- instructions_executed -/
  ie : Word
  /-- memory_reads -/
  mr : Word
  /-- memory_writes -/
  mw : Word
  deriving DecidableEq, Repr

/-- Data memory as a sparse list of (word index, word), canonical when `Memory.wf` holds: indices strictly rising, no
word 0, which is what an unlisted index reads as (R31). Its cell is the spec's own unit, the word: data memory has no
byte view (R37; log entry 7). -/
abbrev Memory := List (Nat × Word)

/-- The architectural state: plain data. -/
structure State where
  /-- x[0] .. x[31] (R15). -/
  regs : Vector Word 32
  /-- The program counter, a byte offset into code memory (R21). -/
  pc : Word
  /-- Running or Halted (R23). -/
  runState : RunState
  /-- The halt record (R24). -/
  halt : HaltRecord
  /-- The counters (R25). -/
  cnt : Counters
  /-- Data memory (R31). -/
  dmem : Memory
  /-- Code memory, code[0 .. L-1], with L its length (R30). -/
  code : List Byte
  /-- The configuration latched for the run (R32). -/
  cfg : RunConfig
  deriving DecidableEq, Repr

/-- `Reset()` at the start of a run with this configuration and this image (R119, R120). -/
def State.resetFor (cfg : RunConfig) (image : List Byte) : State :=
  { regs := Vector.replicate 32 0
    pc := 0
    runState := .running
    halt := HaltRecord.empty
    cnt := { ie := 0, mr := 0, mw := 0 }
    dmem := []
    code := image
    cfg := cfg }

/-- The machine right after reset with the default configuration and no image loaded. DESIGN CHOICE: L = 0 (log entry
2) and MAX_STEPS = 2^30 (log entry 1); everything else is the spec's own value (R6, R8, R120). -/
def State.reset : State := State.resetFor RunConfig.default []

/-- The faults of a step: there is none. Every error of the block is a halt the spec describes in full, hence a next
state (R98, R107; log entry 13). Safe: nothing is cut short. -/
inductive Fault where
  deriving DecidableEq, Repr

/-- What the model refuses. -/
inductive Refusal where
  /-- An instruction without a meaning, in exec's arm. No arm raises it: all four are modelled. Safe. -/
  | notModelled (mnemonic : String)
  /-- The host offers an image of L >= 2^32 bytes: raised by `launch`, never by a step (K10, D4). Safe. -/
  | codeImageTooLong
  /-- The host offers N outside [1, 2^32]: raised by `launch`, never by a step (K10, D12). Safe. -/
  | dmemWordsOutOfRange
  deriving DecidableEq, Repr

end Sys2Proof.Machine
end

