-- ==== Sys2Proof/Machine/Ops.lean ====
section
/-! DEFINITION. The named operations over registers, memory, pc, counters and the halt record. Taking an error is one
shared operation, `State.endRun` and its `halt` and `raise` forms (R14, R24, R98 to R108). There is no return from an
error beside it: only a new run's reset leaves `Halted` (R108, R121), `State.resetFor`. -/

namespace Sys2Proof.Machine

/-! ### Data memory -/

/-- Every index of the list is above `lo` or equal to it, strictly rising, and no word is 0. -/
def Memory.wfFrom : Nat → Memory → Bool
  | _, [] => true
  | lo, (a, v) :: rest => decide (lo ≤ a) && v != 0 && Memory.wfFrom (a + 1) rest

/-- The canonical form of data memory. -/
def Memory.wf (m : Memory) : Bool := Memory.wfFrom 0 m

/-- `MemRead(a, 1)`: the word at an index, 0 where none is listed (R14, R31, R43). -/
def Memory.read : Memory → Nat → Word
  | [], _ => 0
  | (b, v) :: rest, a => if a = b then v else Memory.read rest a

/-- `MemWrite(a, 1, v)`: sets one word, keeping the canonical form (R14, R43). -/
def Memory.write : Memory → Nat → Word → Memory
  | [], a, v => if v = 0 then [] else [(a, v)]
  | (b, u) :: rest, a, v =>
    if a < b then (if v = 0 then (b, u) :: rest else (a, v) :: (b, u) :: rest)
    else if a = b then (if v = 0 then rest else (a, v) :: rest)
    else (b, u) :: Memory.write rest a v

/-- `dmem[a] <- v` on the state (R43). -/
def State.writeMem (s : State) (a : Nat) (v : Word) : State :=
  { s with dmem := s.dmem.write a v }

/-- The translator's check `da_ok = (ea < N)`, unsigned (R42). -/
def State.daOk (s : State) (ea : Word) : Bool := decide (ea.toNat < s.cfg.dmemWords)

/-! ### Registers, pc, counters -/

/-- `x[i]` (R14, R15). -/
def State.readReg (s : State) (i : RegIdx) : Word := s.regs[i.toNat]'i.isLt

/-- `x[i] <- v`; every register is ordinary, x[0] too (R14, R15). -/
def State.writeReg (s : State) (i : RegIdx) (v : Word) : State :=
  { s with regs := s.regs.set i.toNat v i.isLt }

/-- `pc <- pc + 4`, the fetch's advance (R79). -/
def State.advancePc (s : State) : State := { s with pc := s.pc + 4 }

/-- `cnt.ie <- cnt.ie + 1` (R81). -/
def State.countInstr (s : State) : State := { s with cnt := { s.cnt with ie := s.cnt.ie + 1 } }

/-- `cnt.mr <- cnt.mr + 1` (R93). -/
def State.countRead (s : State) : State := { s with cnt := { s.cnt with mr := s.cnt.mr + 1 } }

/-- `cnt.mw <- cnt.mw + 1` (R94). -/
def State.countWrite (s : State) : State := { s with cnt := { s.cnt with mw := s.cnt.mw + 1 } }

/-! ### The end of a run -/

/-- The run has ended: the machine is `Halted`, or the halt record has been written (R23, R24, R102). -/
def State.ended (s : State) : Bool :=
  decide (s.runState = .halted) || decide (s.halt.cause ≠ .none)

/-- The one write of the halt record: step_index is cnt.ie (R24, R103). -/
def State.endRun (s : State) (r : RunState) (cause : HaltCause) (kind : BitVec 2) (faultPc info : Word) : State :=
  { s with
    runState := r
    halt := { cause := cause, decKind := kind, stepIndex := s.cnt.ie, faultPc := faultPc, faultInfo := info } }

/-- The fetch address of the word being executed. Once the fetch has advanced the pc it is pc - 4 (R79, R104). DEDUCED
(log entry 5, safe). -/
def State.fetchAddr (s : State) : Word := s.pc - 4

/-- `halt(END_OF_PROGRAM)` (R76). dec_kind 0: DEDUCED (log entry 6). -/
def State.haltEndOfProgram (s : State) : State := s.endRun .halted .endOfProgram 0 s.pc 0

/-- `halt(MALFORMED_TAIL)`, with the count of trailing bytes (R77, R105). dec_kind 0: DEDUCED (log entry 6). -/
def State.haltMalformedTail (s : State) : State :=
  s.endRun .halted .malformedTail 0 s.pc (BitVec.ofNat 32 (s.code.length - s.pc.toNat))

/-- `raise DecodeError(k, w)`, after the pc's advance (R80, R100, R105). -/
def State.raiseDecodeError (s : State) (k : DecodeError) (w : Word) : State :=
  s.endRun .halted .decodeError k.kindCode s.fetchAddr w

/-- `raise OutOfBounds(ea)`, after the pc's advance (R82, R101, R105). dec_kind 0: DEDUCED (log entry 6). -/
def State.raiseOutOfBounds (s : State) (ea : Word) : State :=
  s.endRun .halted .outOfBounds 0 s.fetchAddr ea

/-- `stop(STEP_CEILING)`: the run ends and the machine stays `Running` (R86, C2). dec_kind 0: DEDUCED (log entry 6). -/
def State.stopAtCeiling (s : State) : State := s.endRun .running .stepCeiling 0 s.pc 0

end Sys2Proof.Machine
end

