-- ==== Sys2Proof/Machine/Operands.lean ====
section
/-! DEFINITION. The operand forms: a zero-extended 20-bit constant, a register, and a data-memory word whose index is a
register's value (R41, R57). There is no other form. -/

namespace Sys2Proof.Machine

/-- `zext_32(B)` of the constant operand (R13, R57). -/
def constOperand (b : BitVec 20) : Word := b.setWidth 32

/-- The effective address of a memory operand: the address register's value, used as a word index without change (R41). -/
def effectiveAddr (s : State) (r : RegIdx) : Word := s.readReg r

/-- The phases of a memory instruction after the address register is read: the translator's check, then the access, or
OutOfBounds with no access at all (R42, R92). -/
def withTranslated (s : State) (ea : Word) (access : Nat → State) : State :=
  if s.daOk ea then access ea.toNat else s.raiseOutOfBounds ea

end Sys2Proof.Machine
end

