-- ==== Sys2Proof/Machine/Immediate.lean ====
section
/-! DEFINITION. The immediate family: LOAD_CONST (R89, R90). A meaning is the `Execute(d)` of R75: the fetch, the pc's
advance and cnt.ie are the step's. -/

namespace Sys2Proof.Machine

/-- LOAD_CONST: `x[C] <- zext_32(B)` (R90). -/
def execLoadConst (b : BitVec 20) (c : RegIdx) (s : State) : Host.Outcome State Fault Refusal :=
  .next (s.writeReg c (constOperand b))

end Sys2Proof.Machine
end

