-- ==== Sys2Proof/Machine/Register.lean ====
section
/-! DEFINITION. The register family: READ_MEM, WRITE_MEM, ABS (R91 to R97). -/

namespace Sys2Proof.Machine

/-- READ_MEM: `ea <- x[C]`, the bounds check, `x[B] <- dmem[ea]`, `cnt.mr + 1` (R93). The address is read before the
register is written (R17). -/
def execReadMem (b c : RegIdx) (s : State) : Host.Outcome State Fault Refusal :=
  let ea := effectiveAddr s c
  .next (withTranslated s ea fun a => (s.writeReg b (s.dmem.read a)).countRead)

/-- WRITE_MEM: `ea <- x[B]`, the bounds check, `dmem[ea] <- x[C]`, `cnt.mw + 1` (R94). -/
def execWriteMem (b c : RegIdx) (s : State) : Host.Outcome State Fault Refusal :=
  let ea := effectiveAddr s b
  .next (withTranslated s ea fun a => (s.writeMem a (s.readReg c)).countWrite)

/-- ABS: nothing; no register is read, no bound checked, no memory accessed (R95, R97, D14). -/
def execAbs (_b _c : RegIdx) (s : State) : Host.Outcome State Fault Refusal :=
  .next s

end Sys2Proof.Machine
end

