-- ==== Sys2Proof/Machine/Dispatch.lean ====
section
/-! DEFINITION. The dispatch of an instruction to its meaning: one arm per constructor. -/

namespace Sys2Proof.Machine

def exec (i : Instr) (s : State) : Host.Outcome State Fault Refusal :=
  match i with
  | .loadConst b c => Sys2Proof.Machine.execLoadConst b c s
  | .readMem b c => Sys2Proof.Machine.execReadMem b c s
  | .writeMem b c => Sys2Proof.Machine.execWriteMem b c s
  | .abs b c => Sys2Proof.Machine.execAbs b c s

end Sys2Proof.Machine
end

