-- ==== Sys2Proof/Machine/Fetch.lean ====
section
/-! DEFINITION. The fetch port (R11, R36, R78), the end-of-code checks (R76, R77), and the placing of a word where the
next step fetches. -/

namespace Sys2Proof.Machine

/-- L, the length of the code image (R7). -/
abbrev State.codeLen (s : State) : Nat := s.code.length

/-- `pc >= L`: nothing left to fetch (R76). -/
def State.atEnd (s : State) : Bool := decide (s.codeLen ≤ s.pc.toNat)

/-- `pc < L` and `L - pc < 4`: a partial word (R77). -/
def State.atTail (s : State) : Bool :=
  decide (s.pc.toNat < s.codeLen) && decide (s.codeLen - s.pc.toNat < 4)

/-- `if_addr` (R11). -/
def ifAddr (s : State) : Word := s.pc

/-- `if_avail` = min(L - pc, 4) (R11). -/
def ifAvail (s : State) : Nat := min (s.codeLen - s.pc.toNat) 4

/-- One byte of code memory; the fetch reads only offsets below L (R78). -/
def State.codeByte (s : State) (a : Nat) : Byte := s.code.getD a 0

/-- `if_word`: the word `Fetch(pc, 4)` assembles, meaningful when 4 bytes are available (R36, R78). -/
def State.fetchWord (s : State) : Word :=
  wordOfBytes (s.codeByte s.pc.toNat) (s.codeByte (s.pc.toNat + 1)) (s.codeByte (s.pc.toNat + 2))
    (s.codeByte (s.pc.toNat + 3))

/-- The ceiling's check, `cnt.ie >= MAX_STEPS` (R85). -/
def State.ceilingReached (s : State) : Bool := decide (s.cfg.maxSteps ≤ s.cnt.ie.toNat)

/-- The next step fetches a word: the run goes on, 4 bytes are there, and the ceiling is not reached (R75, R85). -/
def State.willFetch (s : State) : Bool :=
  !s.ended && !s.atEnd && !s.atTail && !s.ceilingReached

/-- A code image with `bytes` at offset `a`: bytes before `a` that the image lacks are 0, the rest of the image stays. -/
def placeBytes (code : List Byte) (a : Nat) (bytes : List Byte) : List Byte :=
  (code ++ List.replicate (a - code.length) 0).take a ++ bytes ++ code.drop (a + bytes.length)

/-- The state with the table's word stored at the pc and a run in progress, its ceiling not yet reached, so that the next
step fetches it (log entry 2). -/
def placeFetchWord (s : State) (nbits w : Nat) : State :=
  { s with
    runState := .running
    halt := HaltRecord.empty
    code := placeBytes s.code s.pc.toNat (bytesOfWord (BitVec.ofNat 32 (w % 2 ^ nbits)))
    cfg := { s.cfg with maxSteps := max s.cfg.maxSteps (s.cnt.ie.toNat + 1) } }

end Sys2Proof.Machine
end

