-- ==== Sys2Proof/Machine/Sequencer.lean ====
section
/-! DEFINITION. The program-counter state machine (R73 to R83) and one turn of the run driver's loop (R85, R86). -/

namespace Sys2Proof.Machine

/-- Completion: an instruction that left the machine `Running` counts; one that raised does not (R81, R82). -/
def retire (o : Host.Outcome State Fault Refusal) : Host.Outcome State Fault Refusal :=
  match o with
  | .next t => .next (if t.runState = .running then t.countInstr else t)
  | .fault r => .fault r
  | .refused r => .refused r

/-- `Step()`, to be taken only in `Running`: the end-of-code checks, the fetch with its advance of the pc, the decode,
the execution (R75). -/
def stepOnce (s : State) : Host.Outcome State Fault Refusal :=
  if s.atEnd then .next s.haltEndOfProgram
  else if s.atTail then .next s.haltMalformedTail
  else
    match decodeWord s.cfg.rsvCheck s.fetchWord with
    | .error k => .next (s.advancePc.raiseDecodeError k s.fetchWord)
    | .ok i => retire (exec i s.advancePc)

/-- One turn of the run driver's loop: the end-of-code checks go before the ceiling's, and the ceiling's before the fetch
(R85, R106, D8). A run that has ended stays as it is (R23, R73, R83; log entry 3). -/
def driverTurn (s : State) : Host.Outcome State Fault Refusal :=
  if s.ended then .next s
  else if s.atEnd || s.atTail then stepOnce s
  else if s.ceilingReached then .next s.stopAtCeiling
  else stepOnce s

end Sys2Proof.Machine
end

