-- ==== Sys2Proof/Machine/Step.lean ====
section
/-! DEFINITION. The machine's step, one turn of the run driver's loop (R85), and the placing of a word where it fetches. -/

namespace Sys2Proof.Machine

/-- One step of the machine (R75, R85). -/
def step (s : State) : Host.Outcome State Fault Refusal := driverTurn s

/-- The state whose next step fetches and runs the table's word (log entry 2). -/
def State.withFetchWord (s : State) (nbits w : Nat) : State := placeFetchWord s nbits w

end Sys2Proof.Machine
end

