-- ==== Sys2Proof/Machine/Flags.lean ====
section
/-! DEFINITION. The block has no status flags or condition codes, and no instruction sets or tests one (R28). The one flag
is the halted flag (R23). Beside it stand the codes and the Boolean the host reads (R88, R102). -/

namespace Sys2Proof.Machine

/-- The halted flag: `run_state = Halted` (R23, R29). -/
def haltedFlag (s : State) : Bool := decide (s.runState = .halted)

/-- The 3-bit code of a cause (R102, D10). -/
def HaltCause.code : HaltCause → BitVec 3
  | .none => 0
  | .endOfProgram => 1
  | .malformedTail => 2
  | .decodeError => 3
  | .outOfBounds => 4
  | .stepCeiling => 5

/-- Whether a cause is an error (R102). -/
def HaltCause.isError : HaltCause → Bool
  | .none => false
  | .endOfProgram => false
  | .malformedTail => false
  | .decodeError => true
  | .outOfBounds => true
  | .stepCeiling => false

/-- `halted_normally`: true exactly for END_OF_PROGRAM and MALFORMED_TAIL (R88, D9). -/
def haltedNormally (cause : HaltCause) : Bool :=
  match cause with
  | .none => false
  | .endOfProgram => true
  | .malformedTail => true
  | .decodeError => false
  | .outOfBounds => false
  | .stepCeiling => false

end Sys2Proof.Machine
end

