-- ==== Sys2Proof/Machine/HostPort.lean ====
section
/-! DEFINITION. The host's side of the block: the launch of a run (R84, R119, R122), the run (R85, R87), the outcome (R88),
the notices (R96, R118) and the snapshot (R113 to R115). -/

namespace Sys2Proof.Machine

/-- The start of a run: the host's configuration and image, refused when illegal (K10, R6, R7), else `Reset()` (R119). -/
def launch (cfg : RunConfig) (image : List Byte) : Except Refusal State :=
  if Config.codeLimit ≤ image.length then .error .codeImageTooLong
  else if cfg.dmemWords = 0 ∨ Config.maxDmemWords < cfg.dmemWords then .error .dmemWordsOutOfRange
  else .ok (State.resetFor cfg image)

/-- `k` steps (a run's prefix); a run that has ended stays as it is. -/
def steps : Nat → State → Host.Outcome State Fault Refusal
  | 0, s => .next s
  | k + 1, s =>
    match step s with
    | .next t => steps k t
    | .fault r => .fault r
    | .refused r => .refused r

/-- What the host reads at the end of a run (R11, R88). -/
structure RunOutcome where
  /-- `done`: the run_state, as R29 has it (log entry 14). -/
  done : Bool
  /-- `halt_cause` -/
  haltCause : BitVec 3
  /-- `dec_kind` -/
  decKind : BitVec 2
  /-- `step_index` -/
  stepIndex : Word
  /-- `fault_pc` -/
  faultPc : Word
  /-- `fault_info` -/
  faultInfo : Word
  /-- `halted_normally` -/
  haltedNormally : Bool
  /-- The final state. -/
  final : State
  deriving DecidableEq, Repr

/-- `Outcome()` (R88). -/
def outcome (s : State) : RunOutcome :=
  { done := haltedFlag s
    haltCause := s.halt.cause.code
    decKind := s.halt.decKind
    stepIndex := s.halt.stepIndex
    faultPc := s.halt.faultPc
    faultInfo := s.halt.faultInfo
    haltedNormally := haltedNormally s.halt.cause
    final := s }

/-- `Run(MAX_STEPS)`: launch, then the driver's loop. floor(L/4) + 1 turns reach its end (R84, R85, R87). -/
def run (cfg : RunConfig) (image : List Byte) : Except Refusal (Host.Outcome State Fault Refusal) :=
  (launch cfg image).map (steps (image.length / 4 + 1))

/-! ### Notices: outputs without an effect on the state (log entry 11) -/

/-- `len_warning`, at load: L is not a multiple of 4 (R118). -/
def lenWarning (image : List Byte) : Bool := image.length % 4 != 0

/-- `abs_notice`, during the step from this state: an ABS completes (R96). -/
def absNotice (s : State) : Bool :=
  s.willFetch &&
    match decodeWord s.cfg.rsvCheck s.fetchWord with
    | .ok (.abs _ _) => true
    | .ok (.loadConst _ _) => false
    | .ok (.readMem _ _) => false
    | .ok (.writeMem _ _) => false
    | .error _ => false

/-! ### Snapshot -/

/-- The snapshot record (R113); its text is out of scope (R3). -/
structure Snapshot where
  /-- program_info: instructions_executed, memory_reads, memory_writes. -/
  counters : Counters
  /-- program_info: pc. -/
  pc : Word
  /-- registers: (id, value), non-zero values, ascending. -/
  registers : List (Nat × Word)
  /-- data_memory: the requested start. -/
  first : Word
  /-- data_memory: the requested end, exclusive. -/
  limit : Word
  /-- data_memory: the total capacity N. -/
  capacity : Nat
  /-- data_memory: (address, value), non-zero values, ascending. -/
  cells : List (Nat × Word)
  deriving DecidableEq, Repr

/-- The non-zero registers, ascending (R113). -/
def snapshotRegs (s : State) : List (Nat × Word) :=
  (List.range 32).filterMap fun i =>
    let v := s.readReg (BitVec.ofNat 5 i)
    if v = 0 then none else some (i, v)

/-- The non-zero words of [start, end) below N; the canonical memory lists them in ascending order (R113, R115). -/
def snapshotCells (s : State) (first limit : Word) : List (Nat × Word) :=
  s.dmem.filter fun cell =>
    decide (first.toNat ≤ cell.1) && decide (cell.1 < limit.toNat) && decide (cell.1 < s.cfg.dmemWords)

/-- `snapshot(state, [start, end))` (R113). It is a function of the state, so taking it changes nothing (R114). -/
def snapshot (s : State) (first limit : Word) : Snapshot :=
  { counters := s.cnt
    pc := s.pc
    registers := snapshotRegs s
    first := first
    limit := limit
    capacity := s.cfg.dmemWords
    cells := snapshotCells s first limit }

end Sys2Proof.Machine
end

