-- ==== Sys2Proof/Safety.lean ====
section
/-! DEFINITION. The vocabulary of the claims: when a step fetches, the invariants of a run (R20, R22, R24, R27, R31), the
register table of R16, the record of a run's stores (R46), and what a run without an error is. -/

namespace Sys2Proof.Machine

/-- The run has not ended: `Running` with no cause recorded (R23, R102). -/
abbrev RunGoesOn (s : State) : Prop := s.runState = .running ∧ s.halt.cause = .none

/-- The next step fetches a word: the run goes on, a whole word is left, the ceiling is not reached (R75, R85). -/
abbrev ReadyToFetch (s : State) : Prop :=
  RunGoesOn s ∧ s.pc.toNat + 4 ≤ s.code.length ∧ s.cnt.ie.toNat < s.cfg.maxSteps

/-- The word at the pc decodes to this instruction under the run's RSV_CHECK (R62). -/
abbrev DecodesAtPc (s : State) (i : Instr) : Prop := decodeWord s.cfg.rsvCheck s.fetchWord = .ok i

/-- A legal configuration and image (R6, R7). -/
abbrev LegalRun (cfg : RunConfig) (image : List Byte) : Prop :=
  1 ≤ cfg.dmemWords ∧ cfg.dmemWords ≤ 2 ^ 32 ∧ image.length < 2 ^ 32

/-! ### Frames: what two states have in common -/

/-- Every register reads the same. -/
abbrev SameRegs (s t : State) : Prop := ∀ r : RegIdx, t.readReg r = s.readReg r

/-- Every data-memory word reads the same. -/
abbrev SameMem (s t : State) : Prop := ∀ a : Nat, t.dmem.read a = s.dmem.read a

/-- Code memory and configuration are the same. -/
abbrev SameCodeAndConfig (s t : State) : Prop := t.code = s.code ∧ t.cfg = s.cfg

/-- The run state and the halt record are the same. -/
abbrev SameRunState (s t : State) : Prop := t.runState = s.runState ∧ t.halt = s.halt

/-! ### Invariants -/

/-- Data memory is canonical and lists only indices below N (R31, R44). -/
abbrev MemoryCanonical (s : State) : Prop :=
  s.dmem.wf = true ∧ ∀ cell ∈ s.dmem, cell.1 < s.cfg.dmemWords

/-- How far the pc stands beyond the completed words: by the failing word's 4 bytes after an error, which comes after the
fetch's advance (R79). -/
def pcLead : HaltCause → Nat
  | .none => 0
  | .endOfProgram => 0
  | .malformedTail => 0
  | .decodeError => 4
  | .outOfBounds => 4
  | .stepCeiling => 0

/-- The pc counts the words fetched, stays within the image, and bounds the counters (R22, R27). -/
abbrev PcAndCountersAgree (s : State) : Prop :=
  s.code.length < 2 ^ 32 ∧ s.pc.toNat ≤ s.code.length ∧
    s.pc.toNat = 4 * s.cnt.ie.toNat + pcLead s.halt.cause ∧
    s.cnt.mr.toNat + s.cnt.mw.toNat ≤ s.cnt.ie.toNat

/-- Every register and every data-memory word holds a value below 2^20 (R20). -/
abbrev ValuesSmall (s : State) : Prop :=
  (∀ r : RegIdx, (s.readReg r).toNat < 2 ^ 20) ∧ ∀ cell ∈ s.dmem, cell.2.toNat < 2 ^ 20

/-- The halt record and the run state tell one story (R24, R102 to R105), and the counter has not passed the ceiling
(R85). -/
abbrev RecordConsistent (s : State) : Prop :=
  s.cnt.ie.toNat ≤ s.cfg.maxSteps ∧
    match s.halt.cause with
    | .none => s.runState = .running ∧ s.halt = HaltRecord.empty
    | .endOfProgram =>
      s.runState = .halted ∧ s.halt.stepIndex = s.cnt.ie ∧ s.halt.faultPc = s.pc ∧ s.halt.faultInfo = 0 ∧
        s.code.length ≤ s.pc.toNat
    | .malformedTail =>
      s.runState = .halted ∧ s.halt.stepIndex = s.cnt.ie ∧ s.halt.faultPc = s.pc ∧
        s.pc.toNat + s.halt.faultInfo.toNat = s.code.length ∧ 1 ≤ s.halt.faultInfo.toNat ∧ s.halt.faultInfo.toNat ≤ 3
    | .decodeError =>
      s.runState = .halted ∧ s.halt.stepIndex = s.cnt.ie ∧ s.pc = s.halt.faultPc + 4 ∧
        ∃ k : DecodeError, decodeWord s.cfg.rsvCheck s.halt.faultInfo = .error k ∧ s.halt.decKind = k.kindCode
    | .outOfBounds =>
      s.runState = .halted ∧ s.halt.stepIndex = s.cnt.ie ∧ s.pc = s.halt.faultPc + 4 ∧
        s.cfg.dmemWords ≤ s.halt.faultInfo.toNat
    | .stepCeiling =>
      s.runState = .running ∧ s.halt.stepIndex = s.cnt.ie ∧ s.halt.faultPc = s.pc ∧ s.halt.faultInfo = 0 ∧
        s.cnt.ie.toNat = s.cfg.maxSteps ∧ s.pc.toNat + 4 ≤ s.code.length

/-! ### What an instruction reads and writes -/

/-- The registers an instruction reads (R16). -/
def readsRegs : Instr → List RegIdx
  | .loadConst _ _ => []
  | .readMem _ c => [c]
  | .writeMem b c => [b, c]
  | .abs _ _ => []

/-- The registers an instruction writes (R16). -/
def writesRegs : Instr → List RegIdx
  | .loadConst _ c => [c]
  | .readMem b _ => [b]
  | .writeMem _ _ => []
  | .abs _ _ => []

/-- The instruction raises OutOfBounds in this state: READ_MEM when x[C] >= N, WRITE_MEM when x[B] >= N (R101). -/
def RaisesOutOfBounds (i : Instr) (s : State) : Prop :=
  match i with
  | .loadConst _ _ => False
  | .readMem _ c => s.cfg.dmemWords ≤ (s.readReg c).toNat
  | .writeMem b _ => s.cfg.dmemWords ≤ (s.readReg b).toNat
  | .abs _ _ => False

/-- The instruction the next step executes, if it executes one. -/
def nextInstr (s : State) : Option Instr :=
  if s.willFetch then (decodeWord s.cfg.rsvCheck s.fetchWord).toOption else none

/-- The register the next step writes, if it completes an instruction with a destination: a READ_MEM that raises
OutOfBounds writes none (R16, R82). -/
def nextDest (s : State) : List RegIdx :=
  match nextInstr s with
  | some (.loadConst _ c) => [c]
  | some (.readMem b c) => if (s.readReg c).toNat < s.cfg.dmemWords then [b] else []
  | some (.writeMem _ _) => []
  | some (.abs _ _) => []
  | none => []

/-- The registers written by the first `k` steps. -/
def destLog : Nat → State → List RegIdx
  | 0, _ => []
  | k + 1, s =>
    match step s with
    | .next t => nextDest s ++ destLog k t
    | .fault _ => nextDest s
    | .refused _ => nextDest s

/-- The word the next step stores and its index, if it completes a WRITE_MEM (R94). -/
def nextStore (s : State) : List (Nat × Word) :=
  match nextInstr s with
  | some (.writeMem b c) =>
    if (s.readReg b).toNat < s.cfg.dmemWords then [((s.readReg b).toNat, s.readReg c)] else []
  | some (.loadConst _ _) => []
  | some (.readMem _ _) => []
  | some (.abs _ _) => []
  | none => []

/-- The stores completed by the first `k` steps, oldest first. -/
def storeLog : Nat → State → List (Nat × Word)
  | 0, _ => []
  | k + 1, s =>
    match step s with
    | .next t => nextStore s ++ storeLog k t
    | .fault _ => nextStore s
    | .refused _ => nextStore s

/-- The word of the latest store to an index, none if there was no store to it. -/
def latestStore (log : List (Nat × Word)) (a : Nat) : Option Word :=
  ((log.filter fun cell => cell.1 = a).getLast?).map Prod.snd

/-- A run without an error: it goes on, ended naturally, or was stopped by its ceiling (R102). -/
def RunSafe (s : State) : Prop := s.halt.cause.isError = false

end Sys2Proof.Machine
end

