-- ==== Sys2Proof/Certificates/Slice0/Obligations.lean ====
section
/-! DEFINITION. The statements for the provers. Each docstring names the rule of spec/ or the section it formalises, and
what of it is the spec's own decision or inference. -/

open Sys2Proof Sys2Proof.Machine

/-! ### Encoding -/

/-- Decoding an encoded instruction gives it back, as a word and as a chunk of bytes, under either RSV_CHECK; and every
instruction passes validation (30_encoding.md section 5, round trip; R63 is the spec's inference). -/
def Obligations.DecodeOfEncodeIsIdentity : Prop :=
  ∀ (rsv : Bool) (i : Instr),
    i.wellFormed = true ∧ decodeWord rsv (encodeWord i) = .ok i ∧ decodeChunk rsv (encode i) = .ok i

/-- For every command that validates, the encoder's 4 bytes decode to an instruction with the command's opcode, B and C
(30_encoding.md section 5, round trip). -/
def Obligations.EncodedCommandDecodesToItsOperands : Prop :=
  ∀ (rsv : Bool) (cmd : Command) (f : Format), cmd.validate = .ok f →
    ∃ (bytes : List Byte) (i : Instr), encodeCommand cmd = .ok bytes ∧ bytes.length = 4 ∧
      decodeChunk rsv bytes = .ok i ∧ i.toCommand = cmd

/-- The converse of the round trip, an inference of the spec (30_encoding.md section 5): a decoded word is its
instruction's encoding exactly when its reserved bits are 0, and without RSV_CHECK words that differ only in reserved bits
decode alike. -/
def Obligations.DecodedWordIsEncodingIffReservedBitsZero : Prop :=
  (∀ (rsv : Bool) (w : Word) (i : Instr), decodeWord rsv w = .ok i →
    (encodeWord i = w ↔
      if (w.extractLsb' 0 6).toNat = 29 then w.extractLsb' 31 1 = 0 else w.extractLsb' 16 16 = 0)) ∧
  (∀ w w' : Word, (w.extractLsb' 0 6).toNat = 29 → w.extractLsb' 0 31 = w'.extractLsb' 0 31 →
    decodeWord false w = decodeWord false w') ∧
  (∀ w w' : Word, (w.extractLsb' 0 6).toNat ≠ 29 → w.extractLsb' 0 16 = w'.extractLsb' 0 16 →
    decodeWord false w = decodeWord false w')

/-- The bit positions of both formats: the encoded word holds the opcode, B and C at the table's bits and 0 in the reserved
bits, and format I is LOAD_CONST's alone (R53, R54). -/
def Obligations.EncodedWordPlacesFields : Prop :=
  (∀ (b : BitVec 20) (c : RegIdx),
    (encodeWord (.loadConst b c)).extractLsb' 0 6 = 29 ∧ (encodeWord (.loadConst b c)).extractLsb' 6 20 = b ∧
      (encodeWord (.loadConst b c)).extractLsb' 26 5 = c ∧ (encodeWord (.loadConst b c)).extractLsb' 31 1 = 0) ∧
  (∀ (b c : RegIdx) (i : Instr) (op : BitVec 6),
    (i = .readMem b c ∧ op = 18 ∨ i = .writeMem b c ∧ op = 9 ∨ i = .abs b c ∧ op = 25) →
    (encodeWord i).extractLsb' 0 6 = op ∧ (encodeWord i).extractLsb' 6 5 = b ∧ (encodeWord i).extractLsb' 11 5 = c ∧
      (encodeWord i).extractLsb' 16 16 = 0) ∧
  (∀ i : Instr, (encodeWord i).extractLsb' 0 6 = 29 ↔ ∃ b c, i = .loadConst b c)

/-- The opcode set is closed: a word decodes only under one of the four opcode values, to that value's instruction, and
each of the four values decodes when reserved bits are ignored (R58). -/
def Obligations.OnlyFourOpcodesDecode : Prop :=
  (∀ (rsv : Bool) (w : Word) (i : Instr), decodeWord rsv w = .ok i →
    ((w.extractLsb' 0 6).toNat = 29 ∧ ∃ b c, i = .loadConst b c) ∨
    ((w.extractLsb' 0 6).toNat = 18 ∧ ∃ b c, i = .readMem b c) ∨
    ((w.extractLsb' 0 6).toNat = 9 ∧ ∃ b c, i = .writeMem b c) ∨
    ((w.extractLsb' 0 6).toNat = 25 ∧ ∃ b c, i = .abs b c)) ∧
  (∀ w : Word, (w.extractLsb' 0 6).toNat ∈ [29, 18, 9, 25] → ∃ i, decodeWord false w = .ok i)

/-- The decoder's operands are the masked shifts of `fieldLayout`, whenever the word's reserved bits do not make it an error,
and so are the outputs of its port: dec_op is the opcode, dec_fmt its format, dec_b and dec_c the operands, dec_b with its
upper 15 bits 0 in format R; the port's error is the decoder's (30_encoding.md sections 2 and 4, the spec's inferences). -/
def Obligations.DecodedOperandsAreMaskedShifts : Prop :=
  ∀ (rsv : Bool) (w : Word),
    ((w.extractLsb' 0 6).toNat = 29 → (rsv = true → w &&& (fieldLayout .I).reservedMask = 0) →
      ∃ b c, decodeWord rsv w = .ok (.loadConst b c) ∧
        b.toNat = ((w >>> (fieldLayout .I).bShift) &&& (fieldLayout .I).bMask).toNat ∧
        c.toNat = ((w >>> (fieldLayout .I).cShift) &&& (fieldLayout .I).cMask).toNat ∧
        ∃ p : DecoderFields, decoderPort rsv w = .ok p ∧ p.op.toNat = 29 ∧ p.fmt = .I ∧ p.b.toNat = b.toNat ∧
          p.c.toNat = c.toNat) ∧
    (∀ (op : Nat) (mk : RegIdx → RegIdx → Instr),
      (op = 18 ∧ mk = Instr.readMem ∨ op = 9 ∧ mk = Instr.writeMem ∨ op = 25 ∧ mk = Instr.abs) →
      (w.extractLsb' 0 6).toNat = op → (rsv = true → w &&& (fieldLayout .R).reservedMask = 0) →
      ∃ b c, decodeWord rsv w = .ok (mk b c) ∧
        b.toNat = ((w >>> (fieldLayout .R).bShift) &&& (fieldLayout .R).bMask).toNat ∧
        c.toNat = ((w >>> (fieldLayout .R).cShift) &&& (fieldLayout .R).cMask).toNat ∧
        ∃ p : DecoderFields, decoderPort rsv w = .ok p ∧ p.op.toNat = op ∧ p.fmt = .R ∧ p.b.extractLsb' 0 5 = b ∧
          p.b.extractLsb' 5 15 = 0 ∧ p.c.toNat = c.toNat) ∧
    (∀ k : DecodeError, decoderPort rsv w = .error k ↔ decodeWord rsv w = .error k)

/-- Reserved bits under both settings of RSV_CHECK (30_encoding.md section 3; the spec's decision D6): ignored without it;
with it a word of a valid opcode is ReservedBits exactly when a reserved bit is set, and decodes as without it otherwise. -/
def Obligations.ReservedBitsFollowRsvCheck : Prop :=
  ∀ w : Word,
    decodeWord false w ≠ .error .reservedBits ∧
    (decodeWord true w = .error .reservedBits ↔
      ((w.extractLsb' 0 6).toNat = 29 ∧ w.extractLsb' 31 1 ≠ 0) ∨
      ((w.extractLsb' 0 6).toNat ∈ [18, 9, 25] ∧ w.extractLsb' 16 16 ≠ 0)) ∧
    (decodeWord true w ≠ .error .reservedBits → decodeWord true w = decodeWord false w)

/-- The other 60 opcode values encode no instruction: the decoder reports InvalidOpcode for exactly them, whatever the other
bits and RSV_CHECK are, and a run that fetches one halts (R59). -/
def Obligations.InvalidOpcodeIsRejectedAndHalts : Prop :=
  (∀ (rsv : Bool) (w : Word), decodeWord rsv w = .error .invalidOpcode ↔
    ((w.extractLsb' 0 6).toNat ≤ 8 ∨ (10 ≤ (w.extractLsb' 0 6).toNat ∧ (w.extractLsb' 0 6).toNat ≤ 17) ∨
      (19 ≤ (w.extractLsb' 0 6).toNat ∧ (w.extractLsb' 0 6).toNat ≤ 24) ∨
      (26 ≤ (w.extractLsb' 0 6).toNat ∧ (w.extractLsb' 0 6).toNat ≤ 28) ∨ 30 ≤ (w.extractLsb' 0 6).toNat)) ∧
  (∀ s : State, ReadyToFetch s → (s.fetchWord.extractLsb' 0 6).toNat ∉ [9, 18, 25, 29] →
    ∃ t, step s = .next t ∧ t.runState = .halted ∧ t.halt.cause = .decodeError ∧
      t.halt.decKind = DecodeError.invalidOpcode.kindCode)

/-- The stand-alone decoder reports MalformedInstruction for exactly the chunks that are not 4 bytes, so a whole word never
does (30_encoding.md section 4, the spec's inference). -/
def Obligations.MalformedInstructionIffNotFourBytes : Prop :=
  (∀ (rsv : Bool) (chunk : List Byte), decodeChunk rsv chunk = .error .malformedInstruction ↔ chunk.length ≠ 4) ∧
  (∀ (rsv : Bool) (w : Word), decodeWord rsv w ≠ .error .malformedInstruction)

/-- The four fixtures of 95_test_vectors.md section 1.1 and three boundary words of section 2.1. -/
def Obligations.FixtureBytesDecode : Prop :=
  decodeChunk false [0xDD, 0x80, 0x00, 0x10] = .ok (.loadConst 515 4) ∧
  decodeChunk false [0x12, 0x10, 0x00, 0x00] = .ok (.readMem 0 2) ∧
  decodeChunk false [0x49, 0xC3, 0x00, 0x00] = .ok (.writeMem 13 24) ∧
  decodeChunk false [0x99, 0xB6, 0x00, 0x00] = .ok (.abs 26 22) ∧
  decodeChunk true [0xDD, 0xFF, 0xFF, 0x7F] = .ok (.loadConst 1048575 31) ∧
  decodeChunk true [0x1D, 0x00, 0x00, 0x80] = .error .reservedBits ∧
  decodeChunk false [0xDF, 0x80, 0x00, 0x10] = .error .invalidOpcode

/-- The range boundaries of validation are exact (R68). -/
def Obligations.ValidationBoundsAreExact : Prop :=
  ∀ b c : Nat,
    (c ≤ 31 → ((∃ f, Command.validate ⟨29, b, c⟩ = .ok f) ↔ b ≤ 0xFFFFF)) ∧
    (∀ op : Int, op ∈ [18, 9, 25] → ((∃ f, Command.validate ⟨op, b, c⟩ = .ok f) ↔ b ≤ 31 ∧ c ≤ 31))

/-- Validation checks the opcode first, then the ranges; a negative operand is out of range (30_encoding.md section 5; the
spec's decision D16 for the negative). -/
def Obligations.ValidationChecksOpcodeThenRange : Prop :=
  ∀ cmd : Command,
    (cmd.validate = .error .invalidOpcode ↔ cmd.opcode ∉ [29, 18, 9, 25]) ∧
    (cmd.opcode ∈ [29, 18, 9, 25] → (cmd.b < 0 ∨ cmd.c < 0 ∨ 32 ≤ cmd.c ∨ 0x100000 ≤ cmd.b) →
      cmd.validate = .error .operandOutOfRange) ∧
    (cmd.opcode ∈ [18, 9, 25] → 32 ≤ cmd.b → cmd.validate = .error .operandOutOfRange)

/-- The encoder validates, packs opcode, B and C by the shifts of the rule, and emits the word's bytes low byte first; an
invalid command gives its validation error (R69). -/
def Obligations.EncoderPacksByTheFormula : Prop :=
  (∀ b c : Nat, b ≤ 0xFFFFF → c ≤ 31 →
    ∃ w : Word, w = 29#32 ||| (BitVec.ofNat 32 b <<< 6) ||| (BitVec.ofNat 32 c <<< 26) ∧ w.extractLsb' 31 1 = 0 ∧
      encodeCommand ⟨29, b, c⟩ =
        .ok [w.extractLsb' 0 8, w.extractLsb' 8 8, w.extractLsb' 16 8, w.extractLsb' 24 8]) ∧
  (∀ op b c : Nat, op ∈ [18, 9, 25] → b ≤ 31 → c ≤ 31 →
    ∃ w : Word, w = BitVec.ofNat 32 op ||| (BitVec.ofNat 32 b <<< 6) ||| (BitVec.ofNat 32 c <<< 11) ∧
      w.extractLsb' 16 16 = 0 ∧
      encodeCommand ⟨op, b, c⟩ =
        .ok [w.extractLsb' 0 8, w.extractLsb' 8 8, w.extractLsb' 16 8, w.extractLsb' 24 8]) ∧
  (∀ (cmd : Command) (e : ValidationError), cmd.validate = .error e → encodeCommand cmd = .error e)

/-- A program is encoded whole or not at all: if any command fails there are no bytes; if all pass, the output is the
commands' bytes in input order, 4 per command (R70). -/
def Obligations.EncodeProgramIsAllOrNothing : Prop :=
  ∀ cmds : List Command,
    ((∃ cmd ∈ cmds, ∃ e, cmd.validate = .error e) → ∃ e, encodeProgram cmds = .error e) ∧
    ((∀ cmd ∈ cmds, ∃ f, cmd.validate = .ok f) →
      ∃ words : List (List Byte), cmds.map encodeCommand = words.map .ok ∧ encodeProgram cmds = .ok words.flatten ∧
        words.flatten.length = 4 * cmds.length)

/-! ### Launch and reset -/

/-- A legal launch gives the reset state of 70_reset_and_hazards.md section 1 (the halt record's values are the spec's
decisions D7 and D10), and `State.reset` is the launch with the default N = 1024 and RSV_CHECK = false; its empty image and
its ceiling are the model's choice (log entries 1 and 2). -/
def Obligations.LaunchGivesTheResetState : Prop :=
  (∀ (cfg : RunConfig) (image : List Byte), LegalRun cfg image →
    ∃ s, launch cfg image = .ok s ∧ (∀ r : RegIdx, s.readReg r = 0) ∧ (∀ a : Nat, s.dmem.read a = 0) ∧ s.pc = 0 ∧
      s.runState = .running ∧ s.cnt.ie = 0 ∧ s.cnt.mr = 0 ∧ s.cnt.mw = 0 ∧ s.halt.cause = .none ∧ s.halt.decKind = 0 ∧
      s.halt.stepIndex = 0 ∧ s.halt.faultPc = 0 ∧ s.halt.faultInfo = 0 ∧ s.code = image ∧ s.cfg = cfg) ∧
  (∃ maxSteps : Nat, launch { dmemWords := 1024, rsvCheck := false, maxSteps := maxSteps } [] = .ok State.reset)

/-- The host's load refuses exactly the illegal images and sizes (93_implementation_defined.md K10, decisions D4, D12). -/
def Obligations.LaunchRefusesIllegalConfigurations : Prop :=
  ∀ (cfg : RunConfig) (image : List Byte),
    ((∃ s, launch cfg image = .ok s) ↔ LegalRun cfg image) ∧
    (2 ^ 32 ≤ image.length → launch cfg image = .error .codeImageTooLong) ∧
    (image.length < 2 ^ 32 → (cfg.dmemWords = 0 ∨ 2 ^ 32 < cfg.dmemWords) →
      launch cfg image = .error .dmemWordsOutOfRange)

/-- Every register is 0 after reset, and one that no instruction of the run has written still reads as 0, also where an
instruction that raised an error names it as its destination (R19). -/
def Obligations.UnwrittenRegisterReadsZero : Prop :=
  ∀ (cfg : RunConfig) (image : List Byte) (s : State), launch cfg image = .ok s →
    (∀ r : RegIdx, s.readReg r = 0) ∧
    ∀ (k : Nat) (t : State) (r : RegIdx), steps k s = .next t → r ∉ destLog k s → t.readReg r = 0

/-! ### The step -/

/-- The fetched word is the four code bytes at the pc, low byte first (20_memory.md section 2; the formula is the spec's
general knowledge GK1). -/
def Obligations.FetchedWordIsLittleEndian : Prop :=
  ∀ s : State, ReadyToFetch s → ∀ k : Nat, k < 4 →
    s.code[s.pc.toNat + k]? = some (s.fetchWord.extractLsb' (8 * k) 8)

/-- A step runs the decoded instruction: when the word at the pc decodes to i, the step is exec of i on the state with the
pc advanced by 4, and counts the instruction if it leaves the machine Running (40_step.md section 2). -/
def Obligations.StepRunsTheDecodedInstruction : Prop :=
  ∀ (s : State) (i : Instr), ReadyToFetch s → DecodesAtPc s i →
    step s = match exec i { s with pc := s.pc + 4 } with
      | .next t =>
        .next (if t.runState = .running then { t with cnt := { t.cnt with ie := t.cnt.ie + 1 } } else t)
      | .fault r => .fault r
      | .refused r => .refused r

/-- Every step of every state answers a next state: an error is a described halt, so no step answers a fault or a refusal
(the model's reading of 60_exceptions.md section 4, log entry 13), and a step from an ended run leaves it as it is (log
entry 3). -/
def Obligations.EveryStepAnswersANextState : Prop :=
  ∀ s : State, ∃ t, step s = .next t

/-- End of program: at or past the end of the code the machine halts, and pc, registers, memory and counters are unchanged;
an empty program halts so at its first step with cnt.ie = 0 (R76). -/
def Obligations.EndOfProgramHalts : Prop :=
  (∀ s : State, RunGoesOn s → s.code.length ≤ s.pc.toNat →
    ∃ t, step s = .next t ∧ t.runState = .halted ∧ t.halt.cause = .endOfProgram ∧ t.pc = s.pc ∧ SameRegs s t ∧
      SameMem s t ∧ t.cnt = s.cnt ∧ SameCodeAndConfig s t) ∧
  (∀ (cfg : RunConfig) (s : State), launch cfg [] = .ok s →
    ∃ t, step s = .next t ∧ t.runState = .halted ∧ t.halt.cause = .endOfProgram ∧ t.cnt.ie = 0)

/-- Malformed tail: with 1 to 3 bytes left the machine halts, and pc, registers, memory and counters are unchanged; with an
aligned pc this happens exactly when L is not a multiple of 4 and pc = 4 * floor(L / 4) (R77). -/
def Obligations.MalformedTailHalts : Prop :=
  (∀ s : State, RunGoesOn s → s.pc.toNat < s.code.length → s.code.length - s.pc.toNat < 4 →
    ∃ t, step s = .next t ∧ t.runState = .halted ∧ t.halt.cause = .malformedTail ∧ t.pc = s.pc ∧ SameRegs s t ∧
      SameMem s t ∧ t.cnt = s.cnt ∧ SameCodeAndConfig s t) ∧
  (∀ s : State, RunGoesOn s → s.pc.toNat % 4 = 0 →
    ((∃ t, step s = .next t ∧ t.halt.cause = .malformedTail) ↔
      s.code.length % 4 ≠ 0 ∧ s.pc.toNat = 4 * (s.code.length / 4)))

/-- Decode failure: the machine halts with DECODE_ERROR and the error's kind; registers, memory and counters are unchanged
and the pc keeps its advance (R80). -/
def Obligations.DecodeFailureHalts : Prop :=
  ∀ (s : State) (k : DecodeError), ReadyToFetch s → decodeWord s.cfg.rsvCheck s.fetchWord = .error k →
    ∃ t, step s = .next t ∧ t.runState = .halted ∧ t.halt.cause = .decodeError ∧ t.halt.decKind = k.kindCode ∧
      t.pc = s.pc + 4 ∧ SameRegs s t ∧ SameMem s t ∧ t.cnt = s.cnt ∧ SameCodeAndConfig s t

/-- Execution failure: an instruction that raises OutOfBounds halts the machine, changes no register, memory word or
counter (cnt.ie too), and only the pc's advance stands (R82). -/
def Obligations.OutOfBoundsHaltsAndChangesNothing : Prop :=
  ∀ (s : State) (i : Instr), ReadyToFetch s → DecodesAtPc s i → RaisesOutOfBounds i s →
    ∃ t, step s = .next t ∧ t.runState = .halted ∧ t.halt.cause = .outOfBounds ∧ t.pc = s.pc + 4 ∧ SameRegs s t ∧
      SameMem s t ∧ t.cnt = s.cnt ∧ SameCodeAndConfig s t

/-- READ_MEM raises OutOfBounds when x[C] >= N, WRITE_MEM when x[B] >= N, and no other instruction raises it; the state up
to that point stays (R101). -/
def Obligations.OutOfBoundsIsRaisedExactlyByMemoryInstructions : Prop :=
  ∀ (i : Instr) (s : State), RunGoesOn s →
    ∃ t, exec i s = .next t ∧
      (t.halt.cause = .outOfBounds ↔
        (∃ b c, i = .readMem b c ∧ s.cfg.dmemWords ≤ (s.readReg c).toNat) ∨
        (∃ b c, i = .writeMem b c ∧ s.cfg.dmemWords ≤ (s.readReg b).toNat)) ∧
      (t.runState = .halted ↔ t.halt.cause = .outOfBounds) ∧
      (t.halt.cause = .outOfBounds → SameRegs s t ∧ SameMem s t ∧ t.cnt = s.cnt)

/-- The transition table of the program-counter state machine: it starts Running at pc 0, each row's condition in the
table's order decides the next run state and cause, Halted is never left, and nothing else leads to it: with a whole word
left and the ceiling reached the machine stays Running (R73). -/
def Obligations.StateMachineTransitions : Prop :=
  (∀ (cfg : RunConfig) (image : List Byte) (s : State), launch cfg image = .ok s → s.runState = .running ∧ s.pc = 0) ∧
  (∀ s : State, s.runState = .halted → step s = .next s) ∧
  (∀ s : State, RunGoesOn s → s.code.length < s.pc.toNat + 4 ∨ s.cnt.ie.toNat < s.cfg.maxSteps →
    ∃ t, step s = .next t ∧
      if s.code.length ≤ s.pc.toNat then t.runState = .halted ∧ t.halt.cause = .endOfProgram
      else if s.code.length - s.pc.toNat < 4 then t.runState = .halted ∧ t.halt.cause = .malformedTail
      else match decodeWord s.cfg.rsvCheck s.fetchWord with
        | .error _ => t.runState = .halted ∧ t.halt.cause = .decodeError
        | .ok i =>
          (RaisesOutOfBounds i s → t.runState = .halted ∧ t.halt.cause = .outOfBounds) ∧
          (¬ RaisesOutOfBounds i s → t.runState = .running ∧ t.halt.cause = .none)) ∧
  (∀ s t : State, step s = .next t → t.halt.cause = .stepCeiling → t.runState = s.runState) ∧
  (∀ s : State, RunGoesOn s → s.pc.toNat + 4 ≤ s.code.length → s.cfg.maxSteps ≤ s.cnt.ie.toNat →
    ∃ t, step s = .next t ∧ t.runState = .running)

/-- The step ceiling, checked after the end-of-code checks and before the fetch: the run stops, the machine stays Running,
the record says STEP_CEILING with step_index = cnt.ie and fault_pc = pc, nothing else changes, and the run stays stopped
(40_step.md section 3; the spec's decision D8; the last clause is log entry 3). -/
def Obligations.StepCeilingStopsTheRun : Prop :=
  ∀ s : State, RunGoesOn s → s.pc.toNat + 4 ≤ s.code.length → s.cfg.maxSteps ≤ s.cnt.ie.toNat →
    ∃ t, step s = .next t ∧ t.runState = .running ∧ t.halt.cause = .stepCeiling ∧ t.halt.stepIndex = s.cnt.ie ∧
      t.halt.faultPc = s.pc ∧ t.pc = s.pc ∧ SameRegs s t ∧ SameMem s t ∧ t.cnt = s.cnt ∧ SameCodeAndConfig s t ∧
      ∀ k : Nat, steps k t = .next t

/-- No recovery: a step that halts the machine ends the run; however many steps follow, the state stays as the halt left it
(R83). -/
def Obligations.HaltIsFinal : Prop :=
  (∀ s t : State, step s = .next t → t.runState = .halted → ∀ k : Nat, steps k t = .next t) ∧
  (∀ (s : State) (k : Nat), s.runState = .halted → steps k s = .next s)

/-- What the ending step records: step_index is cnt.ie, fault_pc the pc at its start, fault_info the value of its cause, and
dec_kind after a DECODE_ERROR 0 for InvalidOpcode and 2 for ReservedBits; the kinds' codes are 0, 1 (exactly the chunks that
are not 4 bytes, in a decoder used on its own) and 2 (60_exceptions.md sections 1 and 2; the spec's decisions D7 and D10;
dec_kind 0 for a cause other than DECODE_ERROR is log entry 6). -/
def Obligations.HaltRecordContents : Prop :=
  (∀ s t : State, RunGoesOn s → step s = .next t → t.halt.cause ≠ .none →
    t.halt.stepIndex = s.cnt.ie ∧ t.halt.faultPc = s.pc ∧
    (t.halt.cause ≠ .decodeError → t.halt.decKind = 0) ∧
    (t.halt.cause = .endOfProgram ∨ t.halt.cause = .stepCeiling → t.halt.faultInfo = 0) ∧
    (t.halt.cause = .malformedTail → t.halt.faultInfo.toNat = s.code.length - s.pc.toNat) ∧
    (t.halt.cause = .decodeError → t.halt.faultInfo = s.fetchWord ∧
      (decodeWord s.cfg.rsvCheck s.fetchWord = .error .invalidOpcode ∧ t.halt.decKind = 0 ∨
        decodeWord s.cfg.rsvCheck s.fetchWord = .error .reservedBits ∧ t.halt.decKind = 2)) ∧
    (t.halt.cause = .outOfBounds →
      (∃ b c, DecodesAtPc s (.readMem b c) ∧ t.halt.faultInfo = s.readReg c) ∨
      (∃ b c, DecodesAtPc s (.writeMem b c) ∧ t.halt.faultInfo = s.readReg b))) ∧
  (∀ (rsv : Bool) (chunk : List Byte) (k : DecodeError), decodeChunk rsv chunk = .error k →
    (k.kindCode = 0 ↔ k = .invalidOpcode) ∧ (k.kindCode = 1 ↔ chunk.length ≠ 4) ∧ (k.kindCode = 2 ↔ k = .reservedBits))

/-- The pc advances by 4 exactly in a step that fetches a whole word, before the decode, and no instruction writes it: after
DECODE_ERROR or OUT_OF_BOUNDS it is the fetch address + 4 and after END_OF_PROGRAM or MALFORMED_TAIL the fetch address,
which the record keeps as fault_pc (R79). -/
def Obligations.PcAdvancesByFourAfterAFullFetch : Prop :=
  (∀ s t : State, step s = .next t →
    (ReadyToFetch s → t.pc = s.pc + 4) ∧ (¬ ReadyToFetch s → t.pc = s.pc) ∧
    (RunGoesOn s → t.halt.cause = .decodeError ∨ t.halt.cause = .outOfBounds →
      t.halt.faultPc = s.pc ∧ t.pc = t.halt.faultPc + 4) ∧
    (RunGoesOn s → t.halt.cause = .endOfProgram ∨ t.halt.cause = .malformedTail →
      t.halt.faultPc = s.pc ∧ t.pc = t.halt.faultPc)) ∧
  (∀ (i : Instr) (s : State), ∃ t, exec i s = .next t ∧ t.pc = s.pc)

/-- From a safe run, the next step is an error exactly when it fetches a word that does not decode or an instruction that
raises OutOfBounds (60_exceptions.md sections 1 and 2). -/
def Obligations.ErrorsAreExactlyDecodeAndBoundsFailures : Prop :=
  ∀ s : State, RunGoesOn s →
    ∃ t, step s = .next t ∧
      (¬ RunSafe t ↔ ReadyToFetch s ∧
        ((∃ k, decodeWord s.cfg.rsvCheck s.fetchWord = .error k) ∨ ∃ i, DecodesAtPc s i ∧ RaisesOutOfBounds i s))

/-! ### The instructions -/

/-- LOAD_CONST: opcode 29 with B = w[25:6] and C = w[30:26]; x[C] becomes the constant, zero-extended, and nothing else
changes. It raises nothing and touches no memory (R90). -/
def Obligations.LoadConstWritesTheConstant : Prop :=
  (∀ w : Word, w &&& 0x3F = 0x1D →
    decodeWord false w = .ok (.loadConst (w.extractLsb' 6 20) (w.extractLsb' 26 5))) ∧
  (∀ (b : BitVec 20) (c : RegIdx) (s : State),
    ∃ t, exec (.loadConst b c) s = .next t ∧ (t.readReg c).toNat = b.toNat ∧
      (∀ r : RegIdx, r ≠ c → t.readReg r = s.readReg r) ∧ SameMem s t ∧ t.cnt = s.cnt ∧ t.pc = s.pc ∧
      SameRunState s t ∧ SameCodeAndConfig s t)

/-- READ_MEM: opcode 18 with B = w[10:6] and C = w[15:11]; with ea = x[C], read before any write, in range, x[B] becomes
the word dmem[ea] and cnt.mr goes up by 1, and nothing else changes; out of range it raises OutOfBounds with fault_info = ea
and changes no register, memory word or counter (R93). -/
def Obligations.ReadMemLoadsTheWord : Prop :=
  (∀ w : Word, w &&& 0x3F = 0x12 →
    decodeWord false w = .ok (.readMem (w.extractLsb' 6 5) (w.extractLsb' 11 5))) ∧
  (∀ (b c : RegIdx) (s : State), (s.readReg c).toNat < s.cfg.dmemWords →
    ∃ t, exec (.readMem b c) s = .next t ∧ t.readReg b = s.dmem.read (s.readReg c).toNat ∧
      (∀ r : RegIdx, r ≠ b → t.readReg r = s.readReg r) ∧ SameMem s t ∧
      t.cnt.mr = s.cnt.mr + 1 ∧ t.cnt.mw = s.cnt.mw ∧ t.cnt.ie = s.cnt.ie ∧ t.pc = s.pc ∧
      SameRunState s t ∧ SameCodeAndConfig s t) ∧
  (∀ (b c : RegIdx) (s : State), s.cfg.dmemWords ≤ (s.readReg c).toNat →
    ∃ t, exec (.readMem b c) s = .next t ∧ t.runState = .halted ∧ t.halt.cause = .outOfBounds ∧
      t.halt.faultInfo = s.readReg c ∧ SameRegs s t ∧ SameMem s t ∧ t.cnt = s.cnt ∧ t.pc = s.pc ∧
      SameCodeAndConfig s t)

/-- WRITE_MEM: opcode 9 with B = w[10:6] and C = w[15:11]; with ea = x[B] in range, dmem[ea] becomes x[C] (in every
canonical memory) and no other word changes, no register changes, and cnt.mw goes up by 1; out of range it raises
OutOfBounds with fault_info = ea and leaves data memory, registers and counters unmodified (R94). -/
def Obligations.WriteMemStoresTheRegister : Prop :=
  (∀ w : Word, w &&& 0x3F = 0x09 →
    decodeWord false w = .ok (.writeMem (w.extractLsb' 6 5) (w.extractLsb' 11 5))) ∧
  (∀ (b c : RegIdx) (s : State), (effectiveAddr s b).toNat < s.cfg.dmemWords →
    ∃ t, exec (.writeMem b c) s = .next t ∧
      (s.dmem.wf = true → t.dmem.read (effectiveAddr s b).toNat = s.readReg c) ∧
      (∀ a : Nat, a ≠ (effectiveAddr s b).toNat → t.dmem.read a = s.dmem.read a) ∧ SameRegs s t ∧
      t.cnt.mw = s.cnt.mw + 1 ∧ t.cnt.mr = s.cnt.mr ∧ t.cnt.ie = s.cnt.ie ∧ t.pc = s.pc ∧
      SameRunState s t ∧ SameCodeAndConfig s t) ∧
  (∀ (b c : RegIdx) (s : State), s.cfg.dmemWords ≤ (effectiveAddr s b).toNat →
    ∃ t, exec (.writeMem b c) s = .next t ∧ t.runState = .halted ∧ t.halt.cause = .outOfBounds ∧
      t.halt.faultInfo = s.readReg b ∧ SameRegs s t ∧ SameMem s t ∧ t.cnt = s.cnt ∧ t.pc = s.pc ∧
      SameCodeAndConfig s t)

/-- ABS: whatever its registers hold, exec changes nothing at all, and a step that runs it changes only the pc (+ 4) and
cnt.ie (+ 1) (42_register_family.md, section ABS; that it reads and checks nothing is the spec's decision D14). -/
def Obligations.AbsOnlyCountsAsAStep : Prop :=
  (∀ w : Word, w &&& 0x3F = 0x19 →
    decodeWord false w = .ok (.abs (w.extractLsb' 6 5) (w.extractLsb' 11 5))) ∧
  (∀ (b c : RegIdx) (s : State),
    ∃ t, exec (.abs b c) s = .next t ∧ SameRegs s t ∧ SameMem s t ∧ t.cnt = s.cnt ∧ t.pc = s.pc ∧
      SameRunState s t ∧ SameCodeAndConfig s t) ∧
  (∀ (b c : RegIdx) (s : State), ReadyToFetch s → DecodesAtPc s (.abs b c) →
    step s = .next { s with pc := s.pc + 4, cnt := { s.cnt with ie := s.cnt.ie + 1 } })

/-- The bounds check comes before any access: an address at or above N raises OutOfBounds with that address and memory is
not accessed (the outcome is the same whatever memory holds, and memory stays); an address below N never raises (R42). -/
def Obligations.BoundsCheckPrecedesTheAccess : Prop :=
  ∀ (b c ea : RegIdx) (i : Instr) (s : State),
    (i = .readMem b c ∧ ea = c ∨ i = .writeMem b c ∧ ea = b) →
    (s.cfg.dmemWords ≤ (s.readReg ea).toNat →
      ∃ t, exec i s = .next t ∧ t.halt.cause = .outOfBounds ∧ t.halt.faultInfo = s.readReg ea ∧ t.dmem = s.dmem ∧
        ∀ m : Memory, exec i { s with dmem := m } = .next { t with dmem := m }) ∧
    ((s.readReg ea).toNat < s.cfg.dmemWords → ∃ t, exec i s = .next t ∧ SameRunState s t)

/-- If the address check of a memory instruction raises OutOfBounds, no register, memory word or counter is changed by the
instruction; if it does not, the access and then the write and its counter happen (R92). -/
def Obligations.MemoryInstructionPhases : Prop :=
  ∀ (i : Instr) (s : State), (∃ b c, i = .readMem b c ∨ i = .writeMem b c) →
    (RaisesOutOfBounds i s → ∃ t, exec i s = .next t ∧ SameRegs s t ∧ SameMem s t ∧ t.cnt = s.cnt) ∧
    (¬ RaisesOutOfBounds i s → ∃ t, exec i s = .next t ∧
      (∀ b c, i = .readMem b c → t.readReg b = s.dmem.read (s.readReg c).toNat ∧ t.cnt.mr = s.cnt.mr + 1) ∧
      (∀ b c, i = .writeMem b c → t.dmem = s.dmem.write (s.readReg b).toNat (s.readReg c) ∧ t.cnt.mw = s.cnt.mw + 1))

/-- The register table: an instruction writes no register but those listed for it, its effect does not depend on a
register not listed as read (changing such a register changes nothing else of the next state), and a step that executes no
instruction changes no register (R16). -/
def Obligations.InstructionsTouchOnlyTheirRegisters : Prop :=
  (∀ (i : Instr) (s : State), ∃ t, exec i s = .next t ∧ ∀ r : RegIdx, r ∉ writesRegs i → t.readReg r = s.readReg r) ∧
  (∀ (i : Instr) (s : State) (r : RegIdx) (v : Word), r ∉ readsRegs i →
    ∃ t t' : State, exec i s = .next t ∧ exec i (s.writeReg r v) = .next t' ∧
      (∀ q : RegIdx, q ≠ r → t'.readReg q = t.readReg q) ∧
      (r ∈ writesRegs i → ¬ RaisesOutOfBounds i s → t'.readReg r = t.readReg r) ∧
      t'.dmem = t.dmem ∧ t'.cnt = t.cnt ∧ t'.pc = t.pc ∧ SameRunState t t' ∧ SameCodeAndConfig t t') ∧
  (∀ s t : State, step s = .next t → nextInstr s = none → SameRegs s t)

/-- The counters: in every step cnt.ie goes up by 1 exactly when an instruction completes, cnt.mr exactly when a READ_MEM
completes and cnt.mw exactly when a WRITE_MEM completes, and they change in no other way (10_state.md section 4; the width is
the spec's decision D5). -/
def Obligations.CountersCountCompletedInstructions : Prop :=
  (∀ (s : State) (i : Instr), ReadyToFetch s → DecodesAtPc s i → ¬ RaisesOutOfBounds i s →
    ∃ t, step s = .next t ∧ t.cnt.ie = s.cnt.ie + 1 ∧
      t.cnt.mr = s.cnt.mr + (if ∃ b c, i = .readMem b c then 1 else 0) ∧
      t.cnt.mw = s.cnt.mw + (if ∃ b c, i = .writeMem b c then 1 else 0)) ∧
  (∀ s : State, (∀ i, nextInstr s = some i → RaisesOutOfBounds i s) → ∃ t, step s = .next t ∧ t.cnt = s.cnt)

/-! ### Memory -/

/-- Code memory is the image the host loads; it is the fetch's alone: no step changes it (nor the configuration), and no
instruction's effect depends on it (R30). -/
def Obligations.CodeMemoryIsReadOnlyByTheFetch : Prop :=
  (∀ (cfg : RunConfig) (image : List Byte) (s : State), launch cfg image = .ok s → s.code = image) ∧
  (∀ s t : State, step s = .next t → t.code = s.code ∧ t.cfg = s.cfg) ∧
  (∀ (i : Instr) (s : State) (code' : List Byte),
    ∃ t, exec i s = .next t ∧ exec i { s with code := code' } = .next { t with code := code' })

/-- Data memory: every word is 0 at reset, only WRITE_MEM changes it, and no instruction but READ_MEM depends on it (R31). -/
def Obligations.DataMemoryReadersAndWriters : Prop :=
  (∀ (cfg : RunConfig) (image : List Byte) (s : State), launch cfg image = .ok s → ∀ a : Nat, s.dmem.read a = 0) ∧
  (∀ (i : Instr) (s : State), (∀ b c, i ≠ .writeMem b c) → ∃ t, exec i s = .next t ∧ t.dmem = s.dmem) ∧
  (∀ (i : Instr) (s : State) (m : Memory), (∀ b c, i ≠ .readMem b c) →
    ∃ t t' : State, exec i s = .next t ∧ exec i { s with dmem := m } = .next t' ∧
      { t' with dmem := t.dmem } = t) ∧
  (∀ s t : State, step s = .next t → (∀ b c, nextInstr s ≠ some (.writeMem b c)) → t.dmem = s.dmem)

/-- Sequential memory: in every run, after any number of steps, each data-memory word holds the value of the latest store to
it, or 0 if there was none, and a READ_MEM returns exactly that (R46). -/
def Obligations.ReadMemReturnsTheLatestWrite : Prop :=
  ∀ (cfg : RunConfig) (image : List Byte) (s t : State) (k : Nat), launch cfg image = .ok s → steps k s = .next t →
    (∀ a : Nat, t.dmem.read a = (latestStore (storeLog k s) a).getD 0) ∧
    (∀ b c : RegIdx, ReadyToFetch t → DecodesAtPc t (.readMem b c) → (t.readReg c).toNat < t.cfg.dmemWords →
      ∃ u, step t = .next u ∧ u.readReg b = (latestStore (storeLog k s) (t.readReg c).toNat).getD 0)

/-! ### Invariants -/

/-- Every step keeps data memory canonical and its indices below N (the model's representation of 20_memory.md's data
memory; log entry 7). -/
def Obligations.StepKeepsMemoryCanonical : Prop :=
  ∀ s t : State, MemoryCanonical s → step s = .next t → MemoryCanonical t

/-- Every step keeps the agreement of pc and counters, from which the pc is a multiple of 4, never above L, never
decreasing, and the counters never overflow (10_state.md sections 2 and 4, the spec's inferences). -/
def Obligations.StepKeepsPcAndCountersInStep : Prop :=
  ∀ s t : State, PcAndCountersAgree s → step s = .next t →
    PcAndCountersAgree t ∧ s.pc.toNat ≤ t.pc.toNat ∧ t.pc.toNat % 4 = 0 ∧ t.cnt.ie.toNat ≤ t.code.length / 4

/-- Every step keeps every register and data-memory word below 2^20 (10_state.md section 1, the spec's inference). -/
def Obligations.StepKeepsValuesBelowTwoToTheTwenty : Prop :=
  ∀ s t : State, ValuesSmall s → step s = .next t → ValuesSmall t

/-- Every step keeps the halt record, the run state and the ceiling consistent (60_exceptions.md section 2 and 40_step.md
section 3; the record's contents are the spec's decisions D7, D8 and D10). -/
def Obligations.StepKeepsHaltRecordConsistent : Prop :=
  ∀ s t : State, RecordConsistent s → step s = .next t → RecordConsistent t

/-- The four invariants hold at every launch and at `State.reset`. -/
def Obligations.InvariantsHoldAtLaunch : Prop :=
  (∀ (cfg : RunConfig) (image : List Byte) (s : State), launch cfg image = .ok s →
    MemoryCanonical s ∧ PcAndCountersAgree s ∧ ValuesSmall s ∧ RecordConsistent s) ∧
  MemoryCanonical State.reset ∧ PcAndCountersAgree State.reset ∧ ValuesSmall State.reset ∧ RecordConsistent State.reset

/-! ### Runs -/

/-- Every run ends: after floor(L / 4) + 1 turns of the driver it has, with at most floor(L / 4) completed instructions and
at most MAX_STEPS; `run` returns that end, which a further step leaves as it is (log entry 3 after a stop at the ceiling);
and a ceiling of floor(L / 4) or more never stops it (40_step.md section 3, the spec's inference). -/
def Obligations.EveryRunEnds : Prop :=
  ∀ (cfg : RunConfig) (image : List Byte), LegalRun cfg image →
    ∃ t, run cfg image = .ok (.next t) ∧ ¬ RunGoesOn t ∧ step t = .next t ∧
      t.cnt.ie.toNat ≤ image.length / 4 ∧ t.cnt.ie.toNat ≤ cfg.maxSteps ∧
      (image.length / 4 ≤ cfg.maxSteps → t.halt.cause ≠ .stepCeiling)

/-- In every run, cnt.mr + cnt.mw <= cnt.ie <= floor(L / 4) < 2^30, the pc is a multiple of 4 and at most L, and every
register and data-memory word is below 2^20 (10_state.md sections 1, 2 and 4, the spec's inferences). -/
def Obligations.EveryRunStaysWithinBounds : Prop :=
  ∀ (cfg : RunConfig) (image : List Byte) (s t : State) (k : Nat), launch cfg image = .ok s → steps k s = .next t →
    t.cnt.mr.toNat + t.cnt.mw.toNat ≤ t.cnt.ie.toNat ∧ t.cnt.ie.toNat ≤ image.length / 4 ∧
      image.length / 4 < 2 ^ 30 ∧ t.pc.toNat % 4 = 0 ∧ t.pc.toNat ≤ image.length ∧
      (∀ r : RegIdx, (t.readReg r).toNat < 2 ^ 20) ∧ ∀ a : Nat, (t.dmem.read a).toNat < 2 ^ 20

/-- A run stopped by the ceiling stops at exactly the ceiling count, still Running, with a whole word left to fetch
(40_step.md section 3 and 90_conflicts.md C2; the place of the check is the spec's decision D8). -/
def Obligations.CeilingStopsAtExactlyTheCount : Prop :=
  ∀ (cfg : RunConfig) (image : List Byte) (s t : State) (k : Nat), launch cfg image = .ok s → steps k s = .next t →
    t.halt.cause = .stepCeiling →
    t.cnt.ie.toNat = cfg.maxSteps ∧ cfg.maxSteps < image.length / 4 ∧ t.runState = .running ∧
      t.pc.toNat = 4 * cfg.maxSteps

/-- A run with MAX_STEPS = k, for k < floor(L / 4), leaves the state after the first k completed instructions of the run
with the larger ceiling, when no earlier step ends that run (60_exceptions.md section 7, the spec's inference). -/
def Obligations.CeilingRunIsAPrefix : Prop :=
  ∀ (cfg : RunConfig) (image : List Byte) (s s' t : State) (k : Nat),
    launch cfg image = .ok s → launch { cfg with maxSteps := k } image = .ok s' →
    k ≤ cfg.maxSteps → k < image.length / 4 → steps k s = .next t → RunGoesOn t →
    ∃ u, steps (k + 1) s' = .next u ∧ u.halt.cause = .stepCeiling ∧ u.regs = t.regs ∧ u.dmem = t.dmem ∧
      u.pc = t.pc ∧ u.cnt = t.cnt ∧ u.runState = t.runState ∧ u.cnt.ie.toNat = k

/-! ### The host's readout -/

/-- The snapshot lists exactly the non-zero registers and the non-zero words of [start, end) below N, in ascending order,
with the counters, the pc and N; with start >= end there are no cells (60_exceptions.md section 6; order and clipping are the
spec's decision D13). -/
def Obligations.SnapshotListsExactlyTheNonZeroState : Prop :=
  ∀ (s : State) (first limit : Word), s.dmem.wf = true →
    (∀ (i : Nat) (v : Word), (i, v) ∈ (snapshot s first limit).registers ↔
      ∃ r : RegIdx, r.toNat = i ∧ s.readReg r = v ∧ v ≠ 0) ∧
    ((snapshot s first limit).registers.Pairwise fun x y => x.1 < y.1) ∧
    (∀ (a : Nat) (v : Word), (a, v) ∈ (snapshot s first limit).cells ↔
      first.toNat ≤ a ∧ a < limit.toNat ∧ a < s.cfg.dmemWords ∧ s.dmem.read a = v ∧ v ≠ 0) ∧
    ((snapshot s first limit).cells.Pairwise fun x y => x.1 < y.1) ∧
    (limit.toNat ≤ first.toNat → (snapshot s first limit).cells = []) ∧
    (snapshot s first limit).counters = s.cnt ∧ (snapshot s first limit).pc = s.pc ∧
    (snapshot s first limit).capacity = s.cfg.dmemWords ∧ (snapshot s first limit).first = first ∧
    (snapshot s first limit).limit = limit

/-- The outcome after an ending step: halted_normally is true exactly when fewer than 4 bytes were left (the natural ends),
done is the halted flag, and halt_cause is the code of what ended the run: 1 at the end of the code, 2 at a short tail, 3
for a word that does not decode, 4 for an address out of bounds, 5 at the ceiling, and 0 exactly while the run goes on. In
every state the codes name the recorded cause (40_step.md section 3 and 60_exceptions.md section 2; the spec's decisions D9
and D10; `done` is log entry 14). -/
def Obligations.OutcomeReportsTheEnd : Prop :=
  (∀ s : State,
    ((outcome s).haltCause = 0 ↔ s.halt.cause = .none) ∧ ((outcome s).haltCause = 1 ↔ s.halt.cause = .endOfProgram) ∧
    ((outcome s).haltCause = 2 ↔ s.halt.cause = .malformedTail) ∧
    ((outcome s).haltCause = 3 ↔ s.halt.cause = .decodeError) ∧
    ((outcome s).haltCause = 4 ↔ s.halt.cause = .outOfBounds) ∧
    ((outcome s).haltCause = 5 ↔ s.halt.cause = .stepCeiling)) ∧
  ∀ s : State, RunGoesOn s →
    ∃ t, step s = .next t ∧ ((outcome t).haltedNormally = true ↔ s.code.length < s.pc.toNat + 4) ∧
      ((outcome t).done = true ↔ t.runState = .halted) ∧ ((outcome t).haltCause = 0 ↔ RunGoesOn t) ∧
      ((outcome t).haltCause = 1 ↔ s.code.length ≤ s.pc.toNat) ∧
      ((outcome t).haltCause = 2 ↔ s.pc.toNat < s.code.length ∧ s.code.length < s.pc.toNat + 4) ∧
      ((outcome t).haltCause = 3 ↔ ReadyToFetch s ∧ ∃ k, decodeWord s.cfg.rsvCheck s.fetchWord = .error k) ∧
      ((outcome t).haltCause = 4 ↔ ReadyToFetch s ∧ ∃ i, DecodesAtPc s i ∧ RaisesOutOfBounds i s) ∧
      ((outcome t).haltCause = 5 ↔ s.pc.toNat + 4 ≤ s.code.length ∧ s.cfg.maxSteps ≤ s.cnt.ie.toNat) ∧
      (outcome t).decKind = t.halt.decKind ∧ (outcome t).stepIndex = t.halt.stepIndex ∧
      (outcome t).faultPc = t.halt.faultPc ∧ (outcome t).faultInfo = t.halt.faultInfo ∧ (outcome t).final = t

/-- abs_notice pulses in exactly the steps that run an ABS, and such a step changes only pc and cnt.ie
(42_register_family.md, section ABS; the pulse is the spec's decision D14). -/
def Obligations.AbsNoticePulsesExactlyOnAbs : Prop :=
  ∀ s : State,
    (absNotice s = true ↔ ReadyToFetch s ∧ ∃ b c, DecodesAtPc s (.abs b c)) ∧
    (absNotice s = true →
      ∃ t, step s = .next t ∧ SameRegs s t ∧ SameMem s t ∧ SameRunState s t ∧ t.cnt.ie = s.cnt.ie + 1 ∧
        t.cnt.mr = s.cnt.mr ∧ t.cnt.mw = s.cnt.mw)

/-- len_warning tells the two natural ends apart: a run that ends in MALFORMED_TAIL had the warning at load, one that ends
in END_OF_PROGRAM had not (60_exceptions.md section 7; delivery is the spec's decision D19). -/
def Obligations.LenWarningForetellsTheMalformedTail : Prop :=
  ∀ (cfg : RunConfig) (image : List Byte) (s t : State) (k : Nat), launch cfg image = .ok s → steps k s = .next t →
    (t.halt.cause = .malformedTail → lenWarning image = true) ∧
    (t.halt.cause = .endOfProgram → lenWarning image = false)
end

