-- ==== Sys2Proof/Laws/Decode.lean ====
section
/-! SUPPORT. The small laws of the decoder, the encoder and validation: fields as quotients and remainders, the four opcode
cases, the decoder by opcode, and when a command validates. -/

namespace Sys2Proof

/-! ### Fields as numbers -/

theorem toNat_append_eq {n m : Nat} (x : BitVec n) (y : BitVec m) : (x ++ y).toNat = x.toNat * 2 ^ m + y.toNat := by
  rw [BitVec.toNat_append, ← Nat.shiftLeft_add_eq_or_of_lt y.isLt, Nat.shiftLeft_eq]

theorem toNat_field {n : Nat} (x : BitVec n) (lo len : Nat) : (x.extractLsb' lo len).toNat = x.toNat / 2 ^ lo % 2 ^ len := by
  rw [BitVec.extractLsb'_toNat, Nat.shiftRight_eq_div_pow]

/-- A format I word as a number (R53). -/
theorem encodeWord_loadConst_toNat (b : BitVec 20) (c : RegIdx) :
    (encodeWord (.loadConst b c)).toNat = 29 + b.toNat * 2 ^ 6 + c.toNat * 2 ^ 26 := by
  show ((((0 : BitVec 1) ++ c) ++ b) ++ (29 : BitVec 6)).toNat = _
  rw [toNat_append_eq, toNat_append_eq, toNat_append_eq]
  simp only [BitVec.ofNat_eq_ofNat, BitVec.toNat_ofNat]
  omega

/-- A format R word as a number (R54). -/
theorem formatR_toNat (b c : RegIdx) (op : BitVec 6) :
    ((0 : BitVec 16) ++ c ++ b ++ op : Word).toNat = op.toNat + b.toNat * 2 ^ 6 + c.toNat * 2 ^ 11 := by
  show ((((0 : BitVec 16) ++ c) ++ b) ++ op).toNat = _
  rw [toNat_append_eq, toNat_append_eq, toNat_append_eq]
  simp only [BitVec.ofNat_eq_ofNat, BitVec.toNat_ofNat]
  omega

/-- The bytes of a word assemble to the word (R36). -/
theorem wordOfBytes_bytes (w : Word) :
    wordOfBytes (w.extractLsb' 0 8) (w.extractLsb' 8 8) (w.extractLsb' 16 8) (w.extractLsb' 24 8) = w := by
  have := w.isLt
  apply BitVec.eq_of_toNat_eq
  show (w.extractLsb' 24 8 ++ w.extractLsb' 16 8 ++ w.extractLsb' 8 8 ++ w.extractLsb' 0 8).toNat = _
  rw [toNat_append_eq, toNat_append_eq, toNat_append_eq, toNat_field, toNat_field, toNat_field, toNat_field]
  omega

/-- The stand-alone decoder on a word's own bytes is the word's decoder. -/
@[simp] theorem decodeChunk_bytesOfWord (rsv : Bool) (w : Word) : decodeChunk rsv (bytesOfWord w) = decodeWord rsv w := by
  simp only [decodeChunk, bytesOfWord, wordOfBytes_bytes]

/-! ### The decoder by opcode -/

/-- The four opcode values, or none of them (R58, R59). -/
theorem opcodeOfBits_cases (a : BitVec 6) :
    (a.toNat = 29 ∧ opcodeOfBits a = some .loadConst) ∨ (a.toNat = 18 ∧ opcodeOfBits a = some .readMem) ∨
      (a.toNat = 9 ∧ opcodeOfBits a = some .writeMem) ∨ (a.toNat = 25 ∧ opcodeOfBits a = some .abs) ∨
      (a.toNat ≠ 29 ∧ a.toNat ≠ 18 ∧ a.toNat ≠ 9 ∧ a.toNat ≠ 25 ∧ opcodeOfBits a = none) := by
  revert a; decide

/-- The decoder on a word of a valid opcode (R62). -/
theorem decodeWord_valid {w : Word} {op : Opcode} (rsv : Bool) (h : opcodeOfBits (opField w) = some op) :
    decodeWord rsv w = if rsv && reservedSet op.format w then .error .reservedBits else .ok (extractFields op w) := by
  simp only [decodeWord, h]

/-- The decoder on a word of an invalid opcode (R59). -/
theorem decodeWord_invalid {w : Word} (rsv : Bool) (h : opcodeOfBits (opField w) = none) :
    decodeWord rsv w = .error .invalidOpcode := by
  simp only [decodeWord, h]

/-- What a decoded word was: a valid opcode, its reserved bits acceptable, its fields extracted. -/
theorem decodeWord_ok {rsv : Bool} {w : Word} {i : Instr} (h : decodeWord rsv w = .ok i) :
    ∃ op, opcodeOfBits (opField w) = some op ∧ (rsv && reservedSet op.format w) = false ∧ i = extractFields op w := by
  cases ho : opcodeOfBits (opField w) with
  | none => rw [decodeWord_invalid rsv ho] at h; cases h
  | some op =>
    rw [decodeWord_valid rsv ho] at h
    cases hr : (rsv && reservedSet op.format w) with
    | true => rw [hr] at h; cases h
    | false => rw [hr] at h; exact ⟨op, rfl, hr, by injection h with h; exact h.symm⟩

/-! ### The decoder's port -/

/-- With dec_ok = 1 the port gives the decoded instruction's fields (R64). -/
theorem decoderPort_ok {rsv : Bool} {w : Word} {i : Instr} (h : decodeWord rsv w = .ok i) :
    decoderPort rsv w = .ok i.decoderFields := by
  rw [decoderPort, h]
  rfl

/-- The port's dec_err is the decoder's error (R64). -/
theorem decoderPort_error_iff {rsv : Bool} {w : Word} {k : DecodeError} :
    decoderPort rsv w = .error k ↔ decodeWord rsv w = .error k := by
  rw [decoderPort]
  cases decodeWord rsv w <;> simp [Except.map]

/-- The low 5 bits of a widened register field are the field (R64). -/
theorem setWidth_field_low (b : RegIdx) : (b.setWidth 20).extractLsb' 0 5 = b := by
  have := b.isLt
  apply BitVec.eq_of_toNat_eq
  rw [toNat_field, BitVec.toNat_setWidth]
  omega

/-- The upper 15 bits of a widened register field are 0 (R64). -/
theorem setWidth_field_high (b : RegIdx) : (b.setWidth 20).extractLsb' 5 15 = 0 := by
  have := b.isLt
  apply BitVec.eq_of_toNat_eq
  rw [toNat_field, BitVec.toNat_setWidth]
  show _ = 0
  omega

/-! ### Validation -/

/-- Fitting an unsigned field is lying in its range (R67). -/
theorem fitsWidth_iff (k : Nat) (x : Int) : fitsWidth k x = true ↔ 0 ≤ x ∧ x < 2 ^ k := by
  cases x with
  | ofNat n =>
    simp only [fitsWidth, decide_eq_true_eq, Int.ofNat_eq_natCast]
    exact ⟨fun h => ⟨Int.natCast_nonneg n, by exact_mod_cast h⟩, fun h => by exact_mod_cast h.2⟩
  | negSucc n =>
    have := Int.negSucc_lt_zero n
    simp only [fitsWidth, Bool.false_eq_true, false_iff, not_and]
    omega

/-- When a command passes, by family (R67). -/
theorem validate_ok_iff (cmd : Command) (f : Format) :
    cmd.validate = .ok f ↔
      formatOfCode cmd.opcode = some f ∧ (0 ≤ cmd.b ∧ cmd.b < 2 ^ f.bWidth) ∧ 0 ≤ cmd.c ∧ cmd.c < 2 ^ f.cWidth := by
  unfold Command.validate
  cases formatOfCode cmd.opcode with
  | none => simp
  | some g =>
    simp only [← fitsWidth_iff, ← Bool.and_eq_true, Option.some.injEq]
    cases h : (fitsWidth g.bWidth cmd.b && fitsWidth g.cWidth cmd.c) with
    | true =>
      simp only [if_true, Except.ok.injEq]
      exact ⟨fun e => ⟨e, e ▸ h⟩, fun e => e.1⟩
    | false =>
      simp only [Bool.false_eq_true, if_false, reduceCtorEq, false_iff]
      rintro ⟨rfl, h'⟩
      rw [h] at h'
      cases h'

/-- The family of an opcode number (R58). -/
theorem formatOfCode_eq (n : Int) :
    (n = 29 ∧ formatOfCode n = some .I) ∨ ((n = 18 ∨ n = 9 ∨ n = 25) ∧ formatOfCode n = some .R) ∨
      (n ≠ 29 ∧ n ≠ 18 ∧ n ≠ 9 ∧ n ≠ 25 ∧ formatOfCode n = none) := by
  unfold formatOfCode
  split
  · exact .inl ⟨‹_›, rfl⟩
  · split
    · exact .inr (.inl ⟨‹_›, rfl⟩)
    · exact .inr (.inr ⟨‹_›, by omega, by omega, by omega, rfl⟩)

end Sys2Proof
end

