-- ==== Sys2Proof/Laws/Memory.lean ====
section
/-! SUPPORT. The laws of data memory: a write keeps the canonical form and the bounds of the list, a read after a write
gives the value written and leaves every other index alone (R31, R43). -/

namespace Sys2Proof.Machine

/-- A canonical list from a higher index is canonical from a lower one. -/
theorem Memory.wfFrom_mono {lo hi : Nat} (h : lo ≤ hi) : ∀ {m : Memory}, Memory.wfFrom hi m = true → Memory.wfFrom lo m = true
  | [], _ => rfl
  | (a, v) :: rest, hm => by
    simp only [Memory.wfFrom, Bool.and_eq_true, decide_eq_true_eq] at hm ⊢
    exact ⟨⟨h.trans hm.1.1, hm.1.2⟩, hm.2⟩

/-- A canonical list reads 0 below its first index. -/
theorem Memory.read_below {a lo : Nat} (h : a < lo) : ∀ {m : Memory}, Memory.wfFrom lo m = true → Memory.read m a = 0
  | [], _ => rfl
  | (b, v) :: rest, hm => by
    simp only [Memory.wfFrom, Bool.and_eq_true, decide_eq_true_eq] at hm
    have hne : a ≠ b := by omega
    simpa [Memory.read, hne] using Memory.read_below (lo := b + 1) (by omega) hm.2

/-- A write at or above the list's lower bound keeps the canonical form from that bound. -/
theorem Memory.wfFrom_write {lo a : Nat} (v : Word) (h : lo ≤ a) :
    ∀ {m : Memory}, Memory.wfFrom lo m = true → Memory.wfFrom lo (Memory.write m a v) = true := by
  intro m
  induction m generalizing lo with
  | nil =>
    intro _
    by_cases hv : v = 0#32 <;> simp [Memory.write, Memory.wfFrom, hv, h]
  | cons cell rest ih =>
    obtain ⟨b, u⟩ := cell
    intro hm
    have hm' := hm
    simp only [Memory.wfFrom, Bool.and_eq_true, decide_eq_true_eq] at hm'
    obtain ⟨⟨hlo, hu⟩, hrest⟩ := hm'
    rcases lt_trichotomy a b with hab | rfl | hab
    · by_cases hv : v = 0#32
      · simpa [Memory.write, hab, hv] using hm
      · simp [Memory.write, hab, hv, Memory.wfFrom, h, hrest, Nat.succ_le_of_lt hab, by simpa using hu]
    · by_cases hv : v = 0#32
      · simpa [Memory.write, hv] using Memory.wfFrom_mono (by omega) hrest
      · simp [Memory.write, hv, Memory.wfFrom, h, hrest]
    · have h1 : ¬ a < b := by omega
      have h2 : a ≠ b := by omega
      simp only [Memory.write, h1, h2, if_false, Memory.wfFrom, Bool.and_eq_true, decide_eq_true_eq]
      exact ⟨⟨hlo, hu⟩, ih (by omega) hrest⟩

/-- Every write keeps the canonical form. -/
theorem Memory.write_wf {m : Memory} (a : Nat) (v : Word) (h : m.wf = true) : (m.write a v).wf = true :=
  Memory.wfFrom_write v (Nat.zero_le a) h

/-- The memory of a reset, and so of `State.reset`, is canonical. -/
theorem State.resetFor_dmem_wf (cfg : RunConfig) (image : List Byte) : (State.resetFor cfg image).dmem.wf = true := rfl

/-- A write leaves every other index as it reads. -/
theorem Memory.read_write_other {a q : Nat} (v : Word) (h : q ≠ a) : ∀ m : Memory, (m.write a v).read q = m.read q
  | [] => by by_cases hv : v = 0#32 <;> simp [Memory.write, Memory.read, hv, h]
  | (b, u) :: rest => by
    rcases lt_trichotomy a b with hab | rfl | hab
    · by_cases hv : v = 0#32 <;> simp [Memory.write, Memory.read, hab, hv, h]
    · by_cases hv : v = 0#32 <;> simp [Memory.write, Memory.read, hv, h]
    · have h1 : ¬ a < b := by omega
      have h2 : a ≠ b := by omega
      simp [Memory.write, Memory.read, h1, h2, Memory.read_write_other v h rest]

/-- The read of the written index, on a list canonical from some bound. -/
theorem Memory.wfFrom_read_write {lo a : Nat} (v : Word) :
    ∀ {m : Memory}, Memory.wfFrom lo m = true → (m.write a v).read a = v := by
  intro m
  induction m generalizing lo with
  | nil => intro _; by_cases hv : v = 0#32 <;> simp [Memory.write, Memory.read, hv]
  | cons cell rest ih =>
    obtain ⟨b, u⟩ := cell
    intro hm
    simp only [Memory.wfFrom, Bool.and_eq_true, decide_eq_true_eq] at hm
    rcases lt_trichotomy a b with hab | rfl | hab
    · by_cases hv : v = 0#32
      · have hne : a ≠ b := by omega
        simpa [Memory.write, Memory.read, hab, hv, hne] using Memory.read_below (lo := b + 1) (by omega) hm.2
      · simp [Memory.write, Memory.read, hab, hv]
    · by_cases hv : v = 0#32
      · simpa [Memory.write, hv] using Memory.read_below (lo := a + 1) (by omega) hm.2
      · simp [Memory.write, Memory.read, hv]
    · have h1 : ¬ a < b := by omega
      have h2 : a ≠ b := by omega
      simpa [Memory.write, Memory.read, h1, h2] using ih hm.2

/-- A read after a write to the same index gives the value written. -/
theorem Memory.read_write_same {m : Memory} (a : Nat) (v : Word) (h : m.wf = true) : (m.write a v).read a = v :=
  Memory.wfFrom_read_write v h

/-- A cell of the written list is the cell written or was there before. -/
theorem Memory.mem_write {a : Nat} {v : Word} {cell : Nat × Word} :
    ∀ {m : Memory}, cell ∈ m.write a v → cell = (a, v) ∨ cell ∈ m
  | [], h => by
    by_cases hv : v = 0#32 <;> simp [Memory.write, hv] at h
    exact .inl h
  | (b, u) :: rest, h => by
    rcases lt_trichotomy a b with hab | rfl | hab
    · by_cases hv : v = 0#32 <;> simp [Memory.write, hab, hv] at h ⊢ <;> tauto
    · by_cases hv : v = 0#32 <;> simp [Memory.write, hv] at h ⊢ <;> tauto
    · have h1 : ¬ a < b := by omega
      have h2 : a ≠ b := by omega
      simp only [Memory.write, h1, h2, if_false, List.mem_cons] at h ⊢
      rcases h with h | h
      · exact .inr (.inl h)
      · rcases Memory.mem_write h with h | h
        · exact .inl h
        · exact .inr (.inr h)

/-- A read gives 0 or the word of a listed cell. -/
theorem Memory.read_mem {a : Nat} : ∀ m : Memory, m.read a = 0 ∨ (a, m.read a) ∈ m
  | [] => .inl rfl
  | (b, u) :: rest => by
    by_cases h : a = b
    · subst h; exact .inr (by simp [Memory.read])
    · rcases Memory.read_mem (a := a) rest with h0 | h0
      · exact .inl (by simp [Memory.read, h, h0])
      · exact .inr (by simp [Memory.read, h, h0])

/-- In a canonical list, a cell is listed exactly when its index reads as its non-zero word. -/
theorem Memory.mem_iff_read {a : Nat} {v : Word} :
    ∀ {lo : Nat} {m : Memory}, Memory.wfFrom lo m = true → ((a, v) ∈ m ↔ m.read a = v ∧ v ≠ 0)
  | _, [], _ => by
    simp only [List.not_mem_nil, Memory.read, false_iff, not_and, not_not]
    exact fun h => h.symm
  | lo, (b, u) :: rest, hm => by
    simp only [Memory.wfFrom, Bool.and_eq_true, decide_eq_true_eq, bne_iff_ne] at hm
    by_cases h : a = b
    · subst h
      have h0 : ∀ w, (a, w) ∈ rest → False := fun w hw => by
        have h1 := (Memory.mem_iff_read hm.2).1 hw
        exact h1.2 (h1.1 ▸ Memory.read_below (by omega) hm.2)
      simp only [List.mem_cons, Prod.mk.injEq, true_and, Memory.read, if_true]
      constructor
      · rintro (rfl | h1)
        · exact ⟨rfl, hm.1.2⟩
        · exact absurd h1 (h0 v)
      · rintro ⟨rfl, -⟩; exact .inl rfl
    · simp [Memory.read, h, Memory.mem_iff_read hm.2]

/-- A canonical list has strictly rising indices. -/
theorem Memory.pairwise_of_wfFrom :
    ∀ {lo : Nat} {m : Memory}, Memory.wfFrom lo m = true → (∀ cell ∈ m, lo ≤ cell.1) ∧ m.Pairwise fun x y => x.1 < y.1
  | _, [], _ => by simp
  | lo, (b, u) :: rest, hm => by
    simp only [Memory.wfFrom, Bool.and_eq_true, decide_eq_true_eq] at hm
    obtain ⟨h1, h2⟩ := Memory.pairwise_of_wfFrom hm.2
    refine ⟨?_, List.pairwise_cons.2 ⟨fun c hc => ?_, h2⟩⟩
    · intro c hc
      rcases List.mem_cons.1 hc with rfl | hc
      · exact hm.1.1
      · have := h1 c hc; omega
    · have := h1 c hc; omega

end Sys2Proof.Machine
end

