-- ==== Sys2Proof/Laws/PerInstr.lean ====
section
/-! SUPPORT. Statements about every instruction as syntax, one lemma per constructor: the opcode number of its command, its
encoded opcode field and its decoder output agree with spec/opcode_table.json. -/

namespace Sys2Proof.Laws.OpcodeAgrees

/-- The command's opcode, the encoded word's field A and dec_op are one number, and its family is the one the format
table gives (R56, R58). -/
def Statement (i : Instr) : Prop :=
  i.toCommand.opcode = ((opField (encodeWord i)).toNat : Int) ∧ opField (encodeWord i) = i.decoderFields.op ∧
    formatOfCode i.toCommand.opcode = some i.decoderFields.fmt

theorem opField_append (x : BitVec 26) (a : BitVec 6) : opField (x ++ a : BitVec 32) = a := by
  unfold opField
  ext k hk
  simp only [BitVec.getElem_extractLsb', BitVec.getLsbD_append, Nat.zero_add, hk]
  exact BitVec.getLsbD_eq_getElem hk

theorem loadConst (b : BitVec 20) (c : RegIdx) : Statement (.loadConst b c) := by
  have h : opField (encodeWord (.loadConst b c)) = 29 := opField_append _ 29
  exact ⟨by rw [h]; rfl, h, rfl⟩

theorem readMem (b c : RegIdx) : Statement (.readMem b c) := by
  have h : opField (encodeWord (.readMem b c)) = 18 := opField_append _ 18
  exact ⟨by rw [h]; rfl, h, rfl⟩

theorem writeMem (b c : RegIdx) : Statement (.writeMem b c) := by
  have h : opField (encodeWord (.writeMem b c)) = 9 := opField_append _ 9
  exact ⟨by rw [h]; rfl, h, rfl⟩

theorem abs (b c : RegIdx) : Statement (.abs b c) := by
  have h : opField (encodeWord (.abs b c)) = 25 := opField_append _ 25
  exact ⟨by rw [h]; rfl, h, rfl⟩

end Sys2Proof.Laws.OpcodeAgrees
end

