-- ==== Sys2Proof/Laws/State.lean ====
section
/-! SUPPORT. One lemma per field of State per named update, true by rfl and tagged simp, and the register reads after each
update. -/

namespace Sys2Proof.Machine

variable (s : State)

/-! ### writeMem -/

@[simp] theorem State.writeMem_regs (a : Nat) (v : Word) :
    (s.writeMem a v).regs = s.regs := rfl

@[simp] theorem State.writeMem_pc (a : Nat) (v : Word) :
    (s.writeMem a v).pc = s.pc := rfl

@[simp] theorem State.writeMem_runState (a : Nat) (v : Word) :
    (s.writeMem a v).runState = s.runState := rfl

@[simp] theorem State.writeMem_halt (a : Nat) (v : Word) :
    (s.writeMem a v).halt = s.halt := rfl

@[simp] theorem State.writeMem_cnt (a : Nat) (v : Word) :
    (s.writeMem a v).cnt = s.cnt := rfl

@[simp] theorem State.writeMem_dmem (a : Nat) (v : Word) :
    (s.writeMem a v).dmem = s.dmem.write a v := rfl

@[simp] theorem State.writeMem_code (a : Nat) (v : Word) :
    (s.writeMem a v).code = s.code := rfl

@[simp] theorem State.writeMem_cfg (a : Nat) (v : Word) :
    (s.writeMem a v).cfg = s.cfg := rfl

@[simp] theorem State.writeMem_readReg (a : Nat) (v : Word) (q : RegIdx) :
    (s.writeMem a v).readReg q = s.readReg q := rfl

/-! ### writeReg -/

@[simp] theorem State.writeReg_regs (i : RegIdx) (v : Word) :
    (s.writeReg i v).regs = s.regs.set i.toNat v i.isLt := rfl

@[simp] theorem State.writeReg_pc (i : RegIdx) (v : Word) :
    (s.writeReg i v).pc = s.pc := rfl

@[simp] theorem State.writeReg_runState (i : RegIdx) (v : Word) :
    (s.writeReg i v).runState = s.runState := rfl

@[simp] theorem State.writeReg_halt (i : RegIdx) (v : Word) :
    (s.writeReg i v).halt = s.halt := rfl

@[simp] theorem State.writeReg_cnt (i : RegIdx) (v : Word) :
    (s.writeReg i v).cnt = s.cnt := rfl

@[simp] theorem State.writeReg_dmem (i : RegIdx) (v : Word) :
    (s.writeReg i v).dmem = s.dmem := rfl

@[simp] theorem State.writeReg_code (i : RegIdx) (v : Word) :
    (s.writeReg i v).code = s.code := rfl

@[simp] theorem State.writeReg_cfg (i : RegIdx) (v : Word) :
    (s.writeReg i v).cfg = s.cfg := rfl

/-! ### advancePc -/

@[simp] theorem State.advancePc_regs :
    s.advancePc.regs = s.regs := rfl

@[simp] theorem State.advancePc_pc :
    s.advancePc.pc = s.pc + 4 := rfl

@[simp] theorem State.advancePc_runState :
    s.advancePc.runState = s.runState := rfl

@[simp] theorem State.advancePc_halt :
    s.advancePc.halt = s.halt := rfl

@[simp] theorem State.advancePc_cnt :
    s.advancePc.cnt = s.cnt := rfl

@[simp] theorem State.advancePc_dmem :
    s.advancePc.dmem = s.dmem := rfl

@[simp] theorem State.advancePc_code :
    s.advancePc.code = s.code := rfl

@[simp] theorem State.advancePc_cfg :
    s.advancePc.cfg = s.cfg := rfl

@[simp] theorem State.advancePc_readReg (q : RegIdx) :
    s.advancePc.readReg q = s.readReg q := rfl

/-! ### countInstr -/

@[simp] theorem State.countInstr_regs :
    s.countInstr.regs = s.regs := rfl

@[simp] theorem State.countInstr_pc :
    s.countInstr.pc = s.pc := rfl

@[simp] theorem State.countInstr_runState :
    s.countInstr.runState = s.runState := rfl

@[simp] theorem State.countInstr_halt :
    s.countInstr.halt = s.halt := rfl

@[simp] theorem State.countInstr_cnt :
    s.countInstr.cnt = { s.cnt with ie := s.cnt.ie + 1 } := rfl

@[simp] theorem State.countInstr_dmem :
    s.countInstr.dmem = s.dmem := rfl

@[simp] theorem State.countInstr_code :
    s.countInstr.code = s.code := rfl

@[simp] theorem State.countInstr_cfg :
    s.countInstr.cfg = s.cfg := rfl

@[simp] theorem State.countInstr_readReg (q : RegIdx) :
    s.countInstr.readReg q = s.readReg q := rfl

/-! ### countRead -/

@[simp] theorem State.countRead_regs :
    s.countRead.regs = s.regs := rfl

@[simp] theorem State.countRead_pc :
    s.countRead.pc = s.pc := rfl

@[simp] theorem State.countRead_runState :
    s.countRead.runState = s.runState := rfl

@[simp] theorem State.countRead_halt :
    s.countRead.halt = s.halt := rfl

@[simp] theorem State.countRead_cnt :
    s.countRead.cnt = { s.cnt with mr := s.cnt.mr + 1 } := rfl

@[simp] theorem State.countRead_dmem :
    s.countRead.dmem = s.dmem := rfl

@[simp] theorem State.countRead_code :
    s.countRead.code = s.code := rfl

@[simp] theorem State.countRead_cfg :
    s.countRead.cfg = s.cfg := rfl

@[simp] theorem State.countRead_readReg (q : RegIdx) :
    s.countRead.readReg q = s.readReg q := rfl

/-! ### countWrite -/

@[simp] theorem State.countWrite_regs :
    s.countWrite.regs = s.regs := rfl

@[simp] theorem State.countWrite_pc :
    s.countWrite.pc = s.pc := rfl

@[simp] theorem State.countWrite_runState :
    s.countWrite.runState = s.runState := rfl

@[simp] theorem State.countWrite_halt :
    s.countWrite.halt = s.halt := rfl

@[simp] theorem State.countWrite_cnt :
    s.countWrite.cnt = { s.cnt with mw := s.cnt.mw + 1 } := rfl

@[simp] theorem State.countWrite_dmem :
    s.countWrite.dmem = s.dmem := rfl

@[simp] theorem State.countWrite_code :
    s.countWrite.code = s.code := rfl

@[simp] theorem State.countWrite_cfg :
    s.countWrite.cfg = s.cfg := rfl

@[simp] theorem State.countWrite_readReg (q : RegIdx) :
    s.countWrite.readReg q = s.readReg q := rfl

/-! ### endRun -/

@[simp] theorem State.endRun_regs (r : RunState) (c : HaltCause) (k : BitVec 2) (p w : Word) :
    (s.endRun r c k p w).regs = s.regs := rfl

@[simp] theorem State.endRun_pc (r : RunState) (c : HaltCause) (k : BitVec 2) (p w : Word) :
    (s.endRun r c k p w).pc = s.pc := rfl

@[simp] theorem State.endRun_runState (r : RunState) (c : HaltCause) (k : BitVec 2) (p w : Word) :
    (s.endRun r c k p w).runState = r := rfl

@[simp] theorem State.endRun_halt (r : RunState) (c : HaltCause) (k : BitVec 2) (p w : Word) :
    (s.endRun r c k p w).halt = ⟨c, k, s.cnt.ie, p, w⟩ := rfl

@[simp] theorem State.endRun_cnt (r : RunState) (c : HaltCause) (k : BitVec 2) (p w : Word) :
    (s.endRun r c k p w).cnt = s.cnt := rfl

@[simp] theorem State.endRun_dmem (r : RunState) (c : HaltCause) (k : BitVec 2) (p w : Word) :
    (s.endRun r c k p w).dmem = s.dmem := rfl

@[simp] theorem State.endRun_code (r : RunState) (c : HaltCause) (k : BitVec 2) (p w : Word) :
    (s.endRun r c k p w).code = s.code := rfl

@[simp] theorem State.endRun_cfg (r : RunState) (c : HaltCause) (k : BitVec 2) (p w : Word) :
    (s.endRun r c k p w).cfg = s.cfg := rfl

@[simp] theorem State.endRun_readReg (r : RunState) (c : HaltCause) (k : BitVec 2) (p w : Word) (q : RegIdx) :
    (s.endRun r c k p w).readReg q = s.readReg q := rfl

/-! ### haltEndOfProgram -/

@[simp] theorem State.haltEndOfProgram_regs :
    s.haltEndOfProgram.regs = s.regs := rfl

@[simp] theorem State.haltEndOfProgram_pc :
    s.haltEndOfProgram.pc = s.pc := rfl

@[simp] theorem State.haltEndOfProgram_runState :
    s.haltEndOfProgram.runState = .halted := rfl

@[simp] theorem State.haltEndOfProgram_halt :
    s.haltEndOfProgram.halt = ⟨.endOfProgram, 0, s.cnt.ie, s.pc, 0⟩ := rfl

@[simp] theorem State.haltEndOfProgram_cnt :
    s.haltEndOfProgram.cnt = s.cnt := rfl

@[simp] theorem State.haltEndOfProgram_dmem :
    s.haltEndOfProgram.dmem = s.dmem := rfl

@[simp] theorem State.haltEndOfProgram_code :
    s.haltEndOfProgram.code = s.code := rfl

@[simp] theorem State.haltEndOfProgram_cfg :
    s.haltEndOfProgram.cfg = s.cfg := rfl

@[simp] theorem State.haltEndOfProgram_readReg (q : RegIdx) :
    s.haltEndOfProgram.readReg q = s.readReg q := rfl

/-! ### haltMalformedTail -/

@[simp] theorem State.haltMalformedTail_regs :
    s.haltMalformedTail.regs = s.regs := rfl

@[simp] theorem State.haltMalformedTail_pc :
    s.haltMalformedTail.pc = s.pc := rfl

@[simp] theorem State.haltMalformedTail_runState :
    s.haltMalformedTail.runState = .halted := rfl

@[simp] theorem State.haltMalformedTail_halt :
    s.haltMalformedTail.halt =
      ⟨.malformedTail, 0, s.cnt.ie, s.pc, BitVec.ofNat 32 (s.code.length - s.pc.toNat)⟩ := rfl

@[simp] theorem State.haltMalformedTail_cnt :
    s.haltMalformedTail.cnt = s.cnt := rfl

@[simp] theorem State.haltMalformedTail_dmem :
    s.haltMalformedTail.dmem = s.dmem := rfl

@[simp] theorem State.haltMalformedTail_code :
    s.haltMalformedTail.code = s.code := rfl

@[simp] theorem State.haltMalformedTail_cfg :
    s.haltMalformedTail.cfg = s.cfg := rfl

@[simp] theorem State.haltMalformedTail_readReg (q : RegIdx) :
    s.haltMalformedTail.readReg q = s.readReg q := rfl

/-! ### raiseDecodeError -/

@[simp] theorem State.raiseDecodeError_regs (k : DecodeError) (w : Word) :
    (s.raiseDecodeError k w).regs = s.regs := rfl

@[simp] theorem State.raiseDecodeError_pc (k : DecodeError) (w : Word) :
    (s.raiseDecodeError k w).pc = s.pc := rfl

@[simp] theorem State.raiseDecodeError_runState (k : DecodeError) (w : Word) :
    (s.raiseDecodeError k w).runState = .halted := rfl

@[simp] theorem State.raiseDecodeError_halt (k : DecodeError) (w : Word) :
    (s.raiseDecodeError k w).halt = ⟨.decodeError, k.kindCode, s.cnt.ie, s.fetchAddr, w⟩ := rfl

@[simp] theorem State.raiseDecodeError_cnt (k : DecodeError) (w : Word) :
    (s.raiseDecodeError k w).cnt = s.cnt := rfl

@[simp] theorem State.raiseDecodeError_dmem (k : DecodeError) (w : Word) :
    (s.raiseDecodeError k w).dmem = s.dmem := rfl

@[simp] theorem State.raiseDecodeError_code (k : DecodeError) (w : Word) :
    (s.raiseDecodeError k w).code = s.code := rfl

@[simp] theorem State.raiseDecodeError_cfg (k : DecodeError) (w : Word) :
    (s.raiseDecodeError k w).cfg = s.cfg := rfl

@[simp] theorem State.raiseDecodeError_readReg (k : DecodeError) (w : Word) (q : RegIdx) :
    (s.raiseDecodeError k w).readReg q = s.readReg q := rfl

/-! ### raiseOutOfBounds -/

@[simp] theorem State.raiseOutOfBounds_regs (ea : Word) :
    (s.raiseOutOfBounds ea).regs = s.regs := rfl

@[simp] theorem State.raiseOutOfBounds_pc (ea : Word) :
    (s.raiseOutOfBounds ea).pc = s.pc := rfl

@[simp] theorem State.raiseOutOfBounds_runState (ea : Word) :
    (s.raiseOutOfBounds ea).runState = .halted := rfl

@[simp] theorem State.raiseOutOfBounds_halt (ea : Word) :
    (s.raiseOutOfBounds ea).halt = ⟨.outOfBounds, 0, s.cnt.ie, s.fetchAddr, ea⟩ := rfl

@[simp] theorem State.raiseOutOfBounds_cnt (ea : Word) :
    (s.raiseOutOfBounds ea).cnt = s.cnt := rfl

@[simp] theorem State.raiseOutOfBounds_dmem (ea : Word) :
    (s.raiseOutOfBounds ea).dmem = s.dmem := rfl

@[simp] theorem State.raiseOutOfBounds_code (ea : Word) :
    (s.raiseOutOfBounds ea).code = s.code := rfl

@[simp] theorem State.raiseOutOfBounds_cfg (ea : Word) :
    (s.raiseOutOfBounds ea).cfg = s.cfg := rfl

@[simp] theorem State.raiseOutOfBounds_readReg (ea : Word) (q : RegIdx) :
    (s.raiseOutOfBounds ea).readReg q = s.readReg q := rfl

/-! ### stopAtCeiling -/

@[simp] theorem State.stopAtCeiling_regs :
    s.stopAtCeiling.regs = s.regs := rfl

@[simp] theorem State.stopAtCeiling_pc :
    s.stopAtCeiling.pc = s.pc := rfl

@[simp] theorem State.stopAtCeiling_runState :
    s.stopAtCeiling.runState = .running := rfl

@[simp] theorem State.stopAtCeiling_halt :
    s.stopAtCeiling.halt = ⟨.stepCeiling, 0, s.cnt.ie, s.pc, 0⟩ := rfl

@[simp] theorem State.stopAtCeiling_cnt :
    s.stopAtCeiling.cnt = s.cnt := rfl

@[simp] theorem State.stopAtCeiling_dmem :
    s.stopAtCeiling.dmem = s.dmem := rfl

@[simp] theorem State.stopAtCeiling_code :
    s.stopAtCeiling.code = s.code := rfl

@[simp] theorem State.stopAtCeiling_cfg :
    s.stopAtCeiling.cfg = s.cfg := rfl

@[simp] theorem State.stopAtCeiling_readReg (q : RegIdx) :
    s.stopAtCeiling.readReg q = s.readReg q := rfl

/-! ### Reading a register after a write -/

/-- Reading a register after a write gives the value written to that register and leaves the others (R15). -/
theorem State.readReg_writeReg (i q : RegIdx) (v : Word) :
    (s.writeReg i v).readReg q = if q = i then v else s.readReg q := by
  simp only [State.readReg, State.writeReg, Vector.getElem_set, BitVec.toNat_inj, eq_comm (a := i)]

@[simp] theorem State.readReg_writeReg_same (i : RegIdx) (v : Word) : (s.writeReg i v).readReg i = v := by
  simp [State.readReg_writeReg]

/-- Undoing the fetch's advance gives the fetch address (R104). -/
@[simp] theorem State.fetchAddr_advancePc : s.advancePc.fetchAddr = s.pc := by
  simp [State.fetchAddr]

end Sys2Proof.Machine
end

