-- ==== Sys2Proof/Laws/Step.lean ====
section
/-! SUPPORT. What each shared operation and the step can do, said once: the translator, `exec`, the conditions of the run
driver, and the step, which always answers a next state. -/

namespace Sys2Proof.Machine

/-! ### The translator and exec -/

/-- A translated access with the address in range (R42). -/
theorem withTranslated_inRange {s : State} {ea : Word} {access : Nat → State} (h : ea.toNat < s.cfg.dmemWords) :
    withTranslated s ea access = access ea.toNat := by
  simp [withTranslated, State.daOk, h]

/-- A translated access with the address out of range touches nothing (R42, R92). -/
theorem withTranslated_outOfRange {s : State} {ea : Word} {access : Nat → State} (h : s.cfg.dmemWords ≤ ea.toNat) :
    withTranslated s ea access = s.raiseOutOfBounds ea := by
  simp [withTranslated, State.daOk, Nat.not_lt.2 h]

theorem exec_loadConst (b : BitVec 20) (c : RegIdx) (s : State) :
    exec (.loadConst b c) s = .next (s.writeReg c (b.setWidth 32)) := rfl

theorem exec_abs (b c : RegIdx) (s : State) : exec (.abs b c) s = .next s := rfl

theorem exec_readMem_inRange {b c : RegIdx} {s : State} (h : (s.readReg c).toNat < s.cfg.dmemWords) :
    exec (.readMem b c) s = .next (s.writeReg b (s.dmem.read (s.readReg c).toNat)).countRead := by
  simp only [exec, execReadMem, effectiveAddr, withTranslated_inRange h]

theorem exec_readMem_outOfRange {b c : RegIdx} {s : State} (h : s.cfg.dmemWords ≤ (s.readReg c).toNat) :
    exec (.readMem b c) s = .next (s.raiseOutOfBounds (s.readReg c)) := by
  simp only [exec, execReadMem, effectiveAddr, withTranslated_outOfRange h]

theorem exec_writeMem_inRange {b c : RegIdx} {s : State} (h : (s.readReg b).toNat < s.cfg.dmemWords) :
    exec (.writeMem b c) s = .next (s.writeMem (s.readReg b).toNat (s.readReg c)).countWrite := by
  simp only [exec, execWriteMem, effectiveAddr, withTranslated_inRange h]

theorem exec_writeMem_outOfRange {b c : RegIdx} {s : State} (h : s.cfg.dmemWords ≤ (s.readReg b).toNat) :
    exec (.writeMem b c) s = .next (s.raiseOutOfBounds (s.readReg b)) := by
  simp only [exec, execWriteMem, effectiveAddr, withTranslated_outOfRange h]

/-- What an instruction does when it completes. -/
def completed (i : Instr) (s : State) : State :=
  match i with
  | .loadConst b c => s.writeReg c (b.setWidth 32)
  | .readMem b c => (s.writeReg b (s.dmem.read (s.readReg c).toNat)).countRead
  | .writeMem b c => (s.writeMem (s.readReg b).toNat (s.readReg c)).countWrite
  | .abs _ _ => s

/-- The address register of an instruction's access. -/
def addressReg : Instr → RegIdx
  | .loadConst _ c => c
  | .readMem _ c => c
  | .writeMem b _ => b
  | .abs b _ => b

/-- Exec answers the completed state, or the halted state when the instruction raises OutOfBounds. -/
theorem exec_eq (i : Instr) (s : State) :
    (¬ RaisesOutOfBounds i s ∧ exec i s = .next (completed i s)) ∨
      (RaisesOutOfBounds i s ∧ s.cfg.dmemWords ≤ (s.readReg (addressReg i)).toNat ∧
        exec i s = .next (s.raiseOutOfBounds (s.readReg (addressReg i)))) := by
  cases i with
  | loadConst b c => exact .inl ⟨id, rfl⟩
  | abs b c => exact .inl ⟨id, rfl⟩
  | readMem b c =>
    rcases Nat.lt_or_ge (s.readReg c).toNat s.cfg.dmemWords with h | h
    · exact .inl ⟨Nat.not_le.2 h, exec_readMem_inRange h⟩
    · exact .inr ⟨h, h, exec_readMem_outOfRange h⟩
  | writeMem b c =>
    rcases Nat.lt_or_ge (s.readReg b).toNat s.cfg.dmemWords with h | h
    · exact .inl ⟨Nat.not_le.2 h, exec_writeMem_inRange h⟩
    · exact .inr ⟨h, h, exec_writeMem_outOfRange h⟩

@[simp] theorem completed_pc (i : Instr) (s : State) : (completed i s).pc = s.pc := by cases i <;> rfl
@[simp] theorem completed_runState (i : Instr) (s : State) : (completed i s).runState = s.runState := by cases i <;> rfl
@[simp] theorem completed_halt (i : Instr) (s : State) : (completed i s).halt = s.halt := by cases i <;> rfl
@[simp] theorem completed_code (i : Instr) (s : State) : (completed i s).code = s.code := by cases i <;> rfl
@[simp] theorem completed_cfg (i : Instr) (s : State) : (completed i s).cfg = s.cfg := by cases i <;> rfl
@[simp] theorem completed_ie (i : Instr) (s : State) : (completed i s).cnt.ie = s.cnt.ie := by cases i <;> rfl

/-- Whether an instruction raises OutOfBounds does not depend on the pc. -/
@[simp] theorem raisesOutOfBounds_advancePc (i : Instr) (s : State) :
    RaisesOutOfBounds i s.advancePc ↔ RaisesOutOfBounds i s := by cases i <;> rfl

/-! ### The conditions of the driver -/

theorem ended_eq_false_iff (s : State) : s.ended = false ↔ RunGoesOn s := by
  cases hr : s.runState <;> simp [State.ended, hr]

theorem atEnd_iff (s : State) : s.atEnd = true ↔ s.code.length ≤ s.pc.toNat := by
  simp [State.atEnd, State.codeLen]

theorem atTail_iff (s : State) :
    s.atTail = true ↔ s.pc.toNat < s.code.length ∧ s.code.length < s.pc.toNat + 4 := by
  simp only [State.atTail, State.codeLen, Bool.and_eq_true, decide_eq_true_eq]; omega

theorem ceilingReached_iff (s : State) : s.ceilingReached = true ↔ s.cfg.maxSteps ≤ s.cnt.ie.toNat := by
  simp [State.ceilingReached]

theorem willFetch_iff (s : State) : s.willFetch = true ↔ ReadyToFetch s := by
  have h1 := ended_eq_false_iff s
  have h2 := atEnd_iff s
  have h3 := atTail_iff s
  have h4 := ceilingReached_iff s
  simp only [State.willFetch, Bool.and_eq_true, Bool.not_eq_true']
  constructor
  · rintro ⟨⟨⟨e1, e2⟩, e3⟩, e4⟩
    simp only [e2, e3, e4, Bool.false_eq_true, false_iff] at h2 h3 h4
    exact ⟨h1.1 e1, by omega, by omega⟩
  · rintro ⟨e1, e2, e3⟩
    refine ⟨⟨⟨h1.2 e1, ?_⟩, ?_⟩, ?_⟩
    · rw [← Bool.not_eq_true, h2]; omega
    · rw [← Bool.not_eq_true, h3]; omega
    · rw [← Bool.not_eq_true, h4]; omega

/-! ### The step -/

/-- A run that has ended stays as it is. -/
theorem step_ended {s : State} (h : ¬ RunGoesOn s) : step s = .next s := by
  have : s.ended = true := by rwa [← ended_eq_false_iff, Bool.not_eq_false] at h
  simp [step, driverTurn, this]

theorem step_atEnd {s : State} (h : RunGoesOn s) (hp : s.code.length ≤ s.pc.toNat) : step s = .next s.haltEndOfProgram := by
  have h1 := (ended_eq_false_iff s).2 h
  have h2 := (atEnd_iff s).2 hp
  simp [step, driverTurn, stepOnce, h1, h2]

theorem step_atTail {s : State} (h : RunGoesOn s) (hp : s.pc.toNat < s.code.length)
    (hq : s.code.length < s.pc.toNat + 4) : step s = .next s.haltMalformedTail := by
  have h1 := (ended_eq_false_iff s).2 h
  have h2 : s.atEnd = false := by rw [← Bool.not_eq_true, atEnd_iff]; omega
  have h3 := (atTail_iff s).2 ⟨hp, hq⟩
  simp [step, driverTurn, stepOnce, h1, h2, h3]

theorem step_ceiling {s : State} (h : RunGoesOn s) (hp : s.pc.toNat + 4 ≤ s.code.length)
    (hc : s.cfg.maxSteps ≤ s.cnt.ie.toNat) : step s = .next s.stopAtCeiling := by
  have h1 := (ended_eq_false_iff s).2 h
  have h2 : s.atEnd = false := by rw [← Bool.not_eq_true, atEnd_iff]; omega
  have h3 : s.atTail = false := by rw [← Bool.not_eq_true, atTail_iff]; omega
  have h4 := (ceilingReached_iff s).2 hc
  simp [step, driverTurn, h1, h2, h3, h4]

/-- A step that fetches is the R75 step from the decode on. -/
theorem step_ready {s : State} (h : ReadyToFetch s) :
    step s = match decodeWord s.cfg.rsvCheck s.fetchWord with
      | .error k => .next (s.advancePc.raiseDecodeError k s.fetchWord)
      | .ok i => retire (exec i s.advancePc) := by
  obtain ⟨h, hp, hc⟩ := h
  have h1 := (ended_eq_false_iff s).2 h
  have h2 : s.atEnd = false := by rw [← Bool.not_eq_true, atEnd_iff]; omega
  have h3 : s.atTail = false := by rw [← Bool.not_eq_true, atTail_iff]; omega
  have h4 : s.ceilingReached = false := by rw [← Bool.not_eq_true, ceilingReached_iff]; omega
  have h5 : step s = stepOnce s := by simp [step, driverTurn, h1, h2, h3, h4]
  exact h5.trans ((if_neg (by simp [h2])).trans (if_neg (by simp [h3])))

theorem step_decodeError {s : State} {k : DecodeError} (h : ReadyToFetch s)
    (hd : decodeWord s.cfg.rsvCheck s.fetchWord = .error k) :
    step s = .next (s.advancePc.raiseDecodeError k s.fetchWord) := by
  rw [step_ready h, hd]

theorem step_outOfBounds {s : State} {i : Instr} (h : ReadyToFetch s) (hd : DecodesAtPc s i)
    (hr : RaisesOutOfBounds i s) :
    step s = .next (s.advancePc.raiseOutOfBounds (s.readReg (addressReg i))) := by
  have hd' : decodeWord s.cfg.rsvCheck s.fetchWord = .ok i := hd
  rw [step_ready h, hd']
  rcases exec_eq i s.advancePc with ⟨hn, -⟩ | ⟨-, -, he⟩
  · exact absurd ((raisesOutOfBounds_advancePc i s).2 hr) hn
  · simp [he, retire]

theorem step_completes {s : State} {i : Instr} (h : ReadyToFetch s) (hd : DecodesAtPc s i)
    (hr : ¬ RaisesOutOfBounds i s) : step s = .next (completed i s.advancePc).countInstr := by
  have hd' : decodeWord s.cfg.rsvCheck s.fetchWord = .ok i := hd
  rw [step_ready h, hd']
  rcases exec_eq i s.advancePc with ⟨-, he⟩ | ⟨hn, -⟩
  · simp [he, retire, h.1.1]
  · exact absurd ((raisesOutOfBounds_advancePc i s).1 hn) hr

/-- Everything a step can do. -/
theorem step_cases (s : State) :
    (¬ RunGoesOn s ∧ step s = .next s) ∨
    (RunGoesOn s ∧ s.code.length ≤ s.pc.toNat ∧ step s = .next s.haltEndOfProgram) ∨
    (RunGoesOn s ∧ s.pc.toNat < s.code.length ∧ s.code.length < s.pc.toNat + 4 ∧ step s = .next s.haltMalformedTail) ∨
    (RunGoesOn s ∧ s.pc.toNat + 4 ≤ s.code.length ∧ s.cfg.maxSteps ≤ s.cnt.ie.toNat ∧ step s = .next s.stopAtCeiling) ∨
    (ReadyToFetch s ∧ ∃ k, decodeWord s.cfg.rsvCheck s.fetchWord = .error k ∧
      step s = .next (s.advancePc.raiseDecodeError k s.fetchWord)) ∨
    (ReadyToFetch s ∧ ∃ i, DecodesAtPc s i ∧ RaisesOutOfBounds i s ∧
      s.cfg.dmemWords ≤ (s.readReg (addressReg i)).toNat ∧
      step s = .next (s.advancePc.raiseOutOfBounds (s.readReg (addressReg i)))) ∨
    (ReadyToFetch s ∧ ∃ i, DecodesAtPc s i ∧ ¬ RaisesOutOfBounds i s ∧
      step s = .next (completed i s.advancePc).countInstr) := by
  by_cases h : RunGoesOn s
  swap; · exact .inl ⟨h, step_ended h⟩
  by_cases h1 : s.code.length ≤ s.pc.toNat
  · exact .inr (.inl ⟨h, h1, step_atEnd h h1⟩)
  by_cases h2 : s.code.length < s.pc.toNat + 4
  · exact .inr (.inr (.inl ⟨h, by omega, h2, step_atTail h (by omega) h2⟩))
  by_cases h3 : s.cfg.maxSteps ≤ s.cnt.ie.toNat
  · exact .inr (.inr (.inr (.inl ⟨h, by omega, h3, step_ceiling h (by omega) h3⟩)))
  have hr : ReadyToFetch s := ⟨h, by omega, by omega⟩
  cases hd : decodeWord s.cfg.rsvCheck s.fetchWord with
  | error k => exact .inr (.inr (.inr (.inr (.inl ⟨hr, k, rfl, step_decodeError hr hd⟩))))
  | ok i =>
    by_cases ho : RaisesOutOfBounds i s
    · refine .inr (.inr (.inr (.inr (.inr (.inl ⟨hr, i, hd, ho, ?_, step_outOfBounds hr hd ho⟩)))))
      cases i with
      | loadConst b c => exact ho.elim
      | abs b c => exact ho.elim
      | readMem b c => exact ho
      | writeMem b c => exact ho
    · exact .inr (.inr (.inr (.inr (.inr (.inr ⟨hr, i, hd, ho, step_completes hr hd ho⟩)))))

end Sys2Proof.Machine
end

