-- ==== Sys2Proof/Tests/Slice0.lean ====
section
/-! SUPPORT. The model's own tests, each expected result taken from the section of spec/ its comment names, and one witness
per hypothesis of the statements. -/

namespace Sys2Proof.Tests

open Sys2Proof.Machine

/-! ### Well-formedness: an ill-formed command for each check (95_test_vectors.md sections 1.2 and 2.2) -/

theorem test_validate_rejects_opcode_30 : Command.validate ⟨30, 0, 0⟩ = .error .invalidOpcode := by decide
theorem test_validate_checks_opcode_first : Command.validate ⟨30, 0x100000, 0⟩ = .error .invalidOpcode := by decide
theorem test_validate_rejects_wide_constant :
    Command.validate (.loadConst 0x100000 0) = .error .operandOutOfRange := by decide
theorem test_validate_rejects_loadConst_register_32 :
    Command.validate (.loadConst 0 32) = .error .operandOutOfRange := by decide
theorem test_validate_rejects_readMem_b_32 : Command.validate (.readMem 32 0) = .error .operandOutOfRange := by decide
theorem test_validate_rejects_writeMem_c_32 : Command.validate (.writeMem 0 32) = .error .operandOutOfRange := by decide
theorem test_validate_rejects_negative : Command.validate (.abs (-1) 0) = .error .operandOutOfRange := by decide
theorem test_validate_accepts_bounds :
    Command.validate (.loadConst 0xFFFFF 0) = .ok .I ∧ Command.validate (.readMem 31 31) = .ok .R := by decide

/-! ### Decoding: words written out bit by bit (R53, R54; 95_test_vectors.md sections 1.1 and 2.1) -/

-- w[31] = 0, w[30:26] = 00100, w[25:6] = 00000000001000000011, w[5:0] = 011101
theorem test_decode_loadConst_bits :
    decodeWord false 0b00010000000000001000000011011101 = .ok (.loadConst 515 4) := by decide
-- w[31:16] = 0, w[15:11] = 00010, w[10:6] = 00000, w[5:0] = 010010
theorem test_decode_readMem_bits :
    decodeWord false 0b00000000000000000001000000010010 = .ok (.readMem 0 2) := by decide
-- w[31:16] = 0, w[15:11] = 11000, w[10:6] = 01101, w[5:0] = 001001
theorem test_decode_writeMem_bits :
    decodeWord false 0b00000000000000001100001101001001 = .ok (.writeMem 13 24) := by decide
-- w[31:16] = 0, w[15:11] = 10110, w[10:6] = 11010, w[5:0] = 011001
theorem test_decode_abs_bits :
    decodeWord false 0b00000000000000001011011010011001 = .ok (.abs 26 22) := by decide

theorem test_reserved_bits_ignored : decodeWord false 0xFFFF1052 = .ok (.readMem 1 2) := by decide
theorem test_reserved_bits_checked : decodeWord true 0xFFFF1052 = .error .reservedBits := by decide
theorem test_opcode_before_reserved : decodeWord true 0xFFFFFFC0 = .error .invalidOpcode := by decide
theorem test_c_of_format_I_is_not_reserved : decodeWord true 0x7FFFFFDD = .ok (.loadConst 1048575 31) := by decide
theorem test_short_chunk : decodeChunk false [0x1D, 0x00, 0x00] = .error .malformedInstruction := by decide
theorem test_decoder_port : decoderPort false 0x0000C349 = .ok ⟨9, .R, 13, 24⟩ := by decide

-- the four fixtures of section 1.1, encoded; the programs of section 2.2
theorem test_encode_fixtures :
    encodeCommand (.loadConst 515 4) = .ok [0xDD, 0x80, 0x00, 0x10] ∧
      encodeCommand (.readMem 0 2) = .ok [0x12, 0x10, 0x00, 0x00] ∧
      encodeCommand (.writeMem 13 24) = .ok [0x49, 0xC3, 0x00, 0x00] ∧
      encodeCommand (.abs 26 22) = .ok [0x99, 0xB6, 0x00, 0x00] := by decide
theorem test_encodeProgram :
    encodeProgram [⟨29, 5, 1⟩, ⟨9, 0, 1⟩] = .ok [0x5D, 0x01, 0x00, 0x04, 0x09, 0x08, 0x00, 0x00] ∧
      encodeProgram [⟨29, 5, 1⟩, ⟨30, 0, 0⟩] = .error .invalidOpcode ∧ encodeProgram [] = .ok [] := by decide
theorem test_listing : (Instr.loadConst 515 4).listing = "LOAD_CONST 515, r4" := by decide

-- the rows of spec/opcode_table.json
theorem test_table_words :
    decodeTableWord 32 0x1D = some (.loadConst 0 0) ∧ decodeTableWord 32 0x12 = some (.readMem 0 0) ∧
      decodeTableWord 32 0x09 = some (.writeMem 0 0) ∧ decodeTableWord 32 0x19 = some (.abs 0 0) := by decide

/-! ### One step on a small state -/

/-- The reset state with the word placed at the pc. -/
def at1 (w : Nat) : State := State.reset.withFetchWord 32 w

/-- One word at pc 4 after a first word, two registers set and a word of data memory listed. -/
def at2 (w : Nat) : State :=
  { ((State.reset.writeReg 1 1023).writeReg 2 1024).writeMem 1023 77 with
    pc := 4, code := [0, 0, 0, 0] ++ bytesOfWord (BitVec.ofNat 32 w) }

/-- The next state of a step, none for a stop. -/
def after (s : State) : Option State :=
  match step s with
  | .next t => some t
  | .fault _ => none
  | .refused _ => none

-- section 2.3, LC4 and LC2: the constant is zero-extended; pc 4, ie 1
theorem test_loadConst :
    (after (at1 0x100080DD)).map (fun t => (t.readReg 4, t.pc, t.cnt.ie, t.cnt.mr)) = some (515, 4, 1, 0) := by decide
theorem test_loadConst_largest : (after (at1 0x7FFFFFDD)).map (fun t => t.readReg 31) = some 0x000FFFFF := by decide
-- section 2.4, RM1 and RM2: word 0x00000812 is READ_MEM r0, r1; 0x00001012 is READ_MEM r0, r2
theorem test_readMem_last_word :
    (after (at2 0x00000812)).map (fun t => (t.readReg 0, t.cnt.mr, t.cnt.ie, t.pc)) = some (77, 1, 1, 8) := by decide
theorem test_readMem_out_of_bounds :
    (after (at2 0x00001012)).map (fun t => (t.halt.cause, t.halt.faultInfo, t.halt.faultPc, t.pc, t.cnt.ie)) =
      some (.outOfBounds, 1024, 4, 8, 0) := by decide
-- section 2.5, W3 form: WRITE_MEM r1, r1 (0x00000849) writes the address; W2 form: WRITE_MEM r2, r1 (0x00000889)
theorem test_writeMem_same_register :
    (after (at2 0x00000849)).map (fun t => (t.dmem, t.cnt.mw, t.runState)) = some ([(1023, 1023)], 1, .running) := by decide
theorem test_writeMem_out_of_bounds :
    (after (at2 0x00000889)).map (fun t => (t.dmem, t.cnt.mw, t.runState, t.halt.faultInfo)) =
      some ([(1023, 77)], 0, .halted, 1024) := by decide
-- section 2.6, A2 form: ABS r2, r0 (0x00000099) with x2 >= N does not fault
theorem test_abs_checks_no_bound :
    after (at2 0x00000099) = some { at2 0x00000099 with pc := 8, cnt := ⟨1, 0, 0⟩ } := by decide
theorem test_abs_notice : absNotice (at2 0x00000099) = true ∧ absNotice (at2 0x00000849) = false := by decide
-- section 2.7, S1, S3, S7, S10
theorem test_empty_program :
    (after State.reset).map (fun t => (t.halt.cause, t.cnt.ie, t.pc, t.halt.faultInfo, haltedNormally t.halt.cause)) =
      some (.endOfProgram, 0, 0, 0, true) := by decide
theorem test_malformed_tail :
    (after (State.resetFor RunConfig.default [0x1D, 0x00])).map (fun t => (t.halt.cause, t.halt.faultInfo, t.runState)) =
      some (.malformedTail, 2, .halted) := by decide
theorem test_ceiling_zero :
    (after (State.resetFor ⟨1024, false, 0⟩ [0x5D, 0x00, 0x00, 0x04])).map
        (fun t => (t.halt.cause, t.runState, t.pc, t.readReg 1, haltedNormally t.halt.cause)) =
      some (.stepCeiling, .running, 0, 0, false) := by decide
theorem test_invalid_opcode :
    (after (at1 0)).map (fun t => (t.halt.cause, t.halt.decKind, t.halt.faultInfo, t.halt.faultPc, t.pc)) =
      some (.decodeError, 0, 0, 0, 4) := by decide
-- section 2.6, A4: RSV_CHECK = true, word 0xFFFF0019
theorem test_reserved_bits_halt :
    (after { at1 0xFFFF0019 with cfg := ⟨1024, true, 1⟩ }).map (fun t => (t.halt.cause, t.halt.decKind, t.cnt.ie, t.pc)) =
      some (.decodeError, 2, 0, 4) := by decide
-- section 2.8: zero-valued registers and cells never appear; clipping at [101, 2000) leaves no cell
theorem test_snapshot :
    (snapshot ((State.reset.writeReg 0 100).writeMem 100 5) 0 1024).registers = [(0, 100)] ∧
      (snapshot ((State.reset.writeReg 0 100).writeMem 100 5) 0 1024).cells = [(100, 5)] ∧
      (snapshot ((State.reset.writeReg 0 100).writeMem 100 5) 101 2000).cells = [] := by decide
-- R118 and 93_implementation_defined.md K10
theorem test_len_warning : lenWarning [0x1D] = true ∧ lenWarning [0x1D, 0, 0, 0] = false := by decide
theorem test_launch_refuses_no_memory : launch ⟨0, false, 1⟩ [] = .error .dmemWordsOutOfRange := by decide

end Sys2Proof.Tests
end

