-- ==== Sys2Proof/Tests/Witnesses.lean ====
section
/-! SUPPORT. For every statement with hypotheses, a named witness: a concrete state and operands that meet them together,
one for each clause and at its boundary where it has one. -/

namespace Sys2Proof.Tests

open Sys2Proof.Machine

/-! ### Encoding -/

theorem witness_EncodedCommandDecodesToItsOperands :
    Command.validate ⟨29, 0xFFFFF, 31⟩ = .ok .I ∧ Command.validate ⟨25, 31, 31⟩ = .ok .R := by decide

theorem witness_DecodedWordIsEncoding_decoded :
    decodeWord true 0x7FFFFFDD = .ok (.loadConst 1048575 31) ∧ decodeWord false 0xFFFF1052 = .ok (.readMem 1 2) := by decide

theorem witness_DecodedWordIsEncoding_formatI :
    ((0x1D : Word).extractLsb' 0 6).toNat = 29 ∧ (0x1D : Word).extractLsb' 0 31 = (0x8000001D : Word).extractLsb' 0 31 := by
  decide

theorem witness_DecodedWordIsEncoding_formatR :
    ((0x12 : Word).extractLsb' 0 6).toNat ≠ 29 ∧ (0x12 : Word).extractLsb' 0 16 = (0x10012 : Word).extractLsb' 0 16 := by
  decide

theorem witness_EncodedWordPlacesFields :
    (Instr.abs 31 0 = .readMem 31 0 ∧ (25 : BitVec 6) = 18 ∨ Instr.abs 31 0 = .writeMem 31 0 ∧ (25 : BitVec 6) = 9 ∨
      Instr.abs 31 0 = .abs 31 0 ∧ (25 : BitVec 6) = 25) := by decide

theorem witness_OnlyFourOpcodesDecode :
    decodeWord true 0x0000C349 = .ok (.writeMem 13 24) ∧ ((0xFFFF0019 : Word).extractLsb' 0 6).toNat ∈ [29, 18, 9, 25] := by
  decide

theorem witness_DecodedOperandsAreMaskedShifts :
    (((0x7FFFFFDD : Word).extractLsb' 0 6).toNat = 29 ∧ (0x7FFFFFDD : Word) &&& (fieldLayout .I).reservedMask = 0) ∧
      ((0x0000FFD2 : Word).extractLsb' 0 6).toNat = 18 ∧ (0x0000FFD2 : Word) &&& (fieldLayout .R).reservedMask = 0 := by
  decide

theorem witness_ReservedBitsFollowRsvCheck : decodeWord true 0x0000FFD2 ≠ .error .reservedBits := by decide

theorem witness_InvalidOpcodeIsRejectedAndHalts :
    ReadyToFetch (at1 0x3F) ∧ ((at1 0x3F).fetchWord.extractLsb' 0 6).toNat ∉ [9, 18, 25, 29] := by decide

theorem witness_ValidationBoundsAreExact : (31 : Nat) ≤ 31 ∧ (9 : Int) ∈ [18, 9, 25] := by decide

theorem witness_ValidationChecksOpcodeThenRange :
    ((29 : Int) ∈ [29, 18, 9, 25] ∧ ((0 : Int) < 0 ∨ (31 : Int) < 0 ∨ (32 : Int) ≤ 31 ∨ (0x100000 : Int) ≤ 0x100000)) ∧
      ((25 : Int) ∈ [18, 9, 25] ∧ (32 : Int) ≤ 32) := by decide

theorem witness_EncoderPacksByTheFormula :
    ((0xFFFFF : Nat) ≤ 0xFFFFF ∧ (31 : Nat) ≤ 31) ∧ ((9 : Nat) ∈ [18, 9, 25] ∧ (31 : Nat) ≤ 31) ∧
      Command.validate ⟨29, 0, 32⟩ = .error .operandOutOfRange := by decide

theorem witness_EncodeProgramIsAllOrNothing_fails :
    ∃ cmd ∈ [Command.loadConst 5 1, ⟨30, 0, 0⟩], ∃ e, cmd.validate = .error e :=
  ⟨⟨30, 0, 0⟩, by decide, .invalidOpcode, by decide⟩

theorem witness_EncodeProgramIsAllOrNothing_passes :
    ∀ cmd ∈ [Command.loadConst 5 1], ∃ f, cmd.validate = .ok f := by
  intro cmd h
  rw [List.mem_singleton.1 h]
  exact ⟨.I, by decide⟩

/-! ### Launch -/

theorem witness_LegalRun : LegalRun ⟨1, true, 0⟩ [0x1D] ∧ LegalRun ⟨2 ^ 32, false, 7⟩ [] := by decide

theorem witness_LaunchRefuses_image : 2 ^ 32 ≤ (List.replicate (2 ^ 32) (0 : Byte)).length := by
  rw [List.length_replicate]

theorem witness_LaunchRefuses_dmem :
    ([] : List Byte).length < 2 ^ 32 ∧ ((2 ^ 32 + 1 : Nat) = 0 ∨ 2 ^ 32 < (2 ^ 32 + 1 : Nat)) := by decide

/-- `LOAD_CONST 1, r1`, twice. -/
def twoLoads : List Byte := [0x5D, 0x00, 0x00, 0x04, 0x5D, 0x00, 0x00, 0x04]

/-- The launch of `twoLoads` with a ceiling. -/
def launched (maxSteps : Nat) : State := State.resetFor ⟨4, false, maxSteps⟩ twoLoads

theorem witness_launch : launch ⟨4, false, 1⟩ twoLoads = .ok (launched 1) := by decide

/-- A state some steps later, the state itself if a step stops. -/
def later (k : Nat) (s : State) : State :=
  match steps k s with
  | .next t => t
  | .fault _ => s
  | .refused _ => s

theorem witness_steps_one : steps 1 (launched 1) = .next (later 1 (launched 1)) := rfl

theorem witness_UnwrittenRegisterReadsZero : (0 : RegIdx) ∉ destLog 1 (launched 1) := by decide

/-- `LOAD_CONST 4, r1`, then `READ_MEM r2, r1`, whose address is out of bounds: r2 is named and never written. -/
def failingRead : State := State.resetFor ⟨4, false, 9⟩ [0x1D, 0x01, 0x00, 0x04, 0x92, 0x08, 0x00, 0x00]

theorem witness_UnwrittenRegister_named_by_a_failing_read :
    launch ⟨4, false, 9⟩ failingRead.code = .ok failingRead ∧ (2 : RegIdx) ∉ destLog 2 failingRead ∧
      (1 : RegIdx) ∈ destLog 2 failingRead ∧ nextInstr (later 1 failingRead) = some (.readMem 2 1) := by decide

theorem witness_failingRead_steps : steps 2 failingRead = .next (later 2 failingRead) := rfl

/-! ### The step -/

theorem witness_FetchedWordIsLittleEndian : ReadyToFetch (at1 0x100080DD) ∧ (3 : Nat) < 4 := by decide

theorem witness_StepRunsTheDecodedInstruction :
    ReadyToFetch (at1 0x100080DD) ∧ DecodesAtPc (at1 0x100080DD) (.loadConst 515 4) := by decide

theorem witness_EndOfProgramHalts :
    RunGoesOn State.reset ∧ State.reset.code.length ≤ State.reset.pc.toNat ∧
      launch ⟨1, false, 0⟩ [] = .ok (State.resetFor ⟨1, false, 0⟩ []) := by decide

/-- Three bytes left at the pc. -/
def tail3 : State := State.resetFor RunConfig.default [0x1D, 0x00, 0x00]

theorem witness_MalformedTailHalts :
    RunGoesOn tail3 ∧ tail3.pc.toNat < tail3.code.length ∧ tail3.code.length - tail3.pc.toNat < 4 ∧
      tail3.pc.toNat % 4 = 0 := by decide

theorem witness_DecodeFailureHalts :
    ReadyToFetch (at1 0x3F) ∧ decodeWord (at1 0x3F).cfg.rsvCheck (at1 0x3F).fetchWord = .error .invalidOpcode := by decide

theorem witness_OutOfBounds_readMem :
    ReadyToFetch (at2 0x00001012) ∧ DecodesAtPc (at2 0x00001012) (.readMem 0 2) := by decide

theorem witness_raises_readMem : RaisesOutOfBounds (.readMem 0 2) (at2 0x00001012) := by
  show 1024 ≤ ((at2 0x00001012).readReg 2).toNat
  decide

theorem witness_OutOfBounds_writeMem :
    ReadyToFetch (at2 0x00000889) ∧ DecodesAtPc (at2 0x00000889) (.writeMem 2 1) := by decide

theorem witness_raises_writeMem : RaisesOutOfBounds (.writeMem 2 1) (at2 0x00000889) := by
  show 1024 ≤ ((at2 0x00000889).readReg 2).toNat
  decide

theorem witness_RunGoesOn : RunGoesOn (at2 0x00001012) := by decide

theorem witness_StateMachineTransitions_halted : (later 1 State.reset).runState = .halted := by decide

theorem witness_StateMachineTransitions_running :
    RunGoesOn tail3 ∧ (tail3.code.length < tail3.pc.toNat + 4 ∨ tail3.cnt.ie.toNat < tail3.cfg.maxSteps) := by decide

/-- A whole word at the pc and a ceiling of 0. -/
def ceiling0 : State := launched 0

theorem witness_StepCeilingStopsTheRun :
    RunGoesOn ceiling0 ∧ ceiling0.pc.toNat + 4 ≤ ceiling0.code.length ∧ ceiling0.cfg.maxSteps ≤ ceiling0.cnt.ie.toNat := by
  decide

theorem witness_StateMachineTransitions_ceiling :
    RunGoesOn ceiling0 ∧ ceiling0.pc.toNat + 4 ≤ ceiling0.code.length ∧ ceiling0.cfg.maxSteps ≤ ceiling0.cnt.ie.toNat :=
  witness_StepCeilingStopsTheRun

theorem witness_ceiling_cause : step ceiling0 = .next (later 1 ceiling0) ∧ (later 1 ceiling0).halt.cause = .stepCeiling :=
  ⟨rfl, by decide⟩

theorem witness_HaltIsFinal : step State.reset = .next (later 1 State.reset) ∧ (later 1 State.reset).runState = .halted :=
  ⟨rfl, by decide⟩

theorem witness_HaltRecordContents_tail :
    step tail3 = .next (later 1 tail3) ∧ (later 1 tail3).halt.cause = .malformedTail := ⟨rfl, by decide⟩

theorem witness_HaltRecordContents_decode :
    step (at1 0x3F) = .next (later 1 (at1 0x3F)) ∧ (later 1 (at1 0x3F)).halt.cause = .decodeError := ⟨rfl, by decide⟩

theorem witness_HaltRecordContents_bounds :
    step (at2 0x00001012) = .next (later 1 (at2 0x00001012)) ∧
      (later 1 (at2 0x00001012)).halt.cause = .outOfBounds := ⟨rfl, by decide⟩

theorem witness_HaltRecordContents_end :
    step State.reset = .next (later 1 State.reset) ∧ (later 1 State.reset).halt.cause = .endOfProgram := ⟨rfl, by decide⟩

theorem witness_HaltRecordContents_kinds :
    decodeChunk false [0x3F, 0, 0, 0] = .error .invalidOpcode ∧ decodeChunk true [0x1D, 0] = .error .malformedInstruction ∧
      decodeChunk true [0x1D, 0, 0, 0x80] = .error .reservedBits := by decide

theorem witness_not_ready : ¬ ReadyToFetch tail3 ∧ ¬ ReadyToFetch ceiling0 := by decide

/-! ### The instructions -/

theorem witness_opcode_words :
    (0x7FFFFFDD : Word) &&& 0x3F = 0x1D ∧ (0xFFFF1052 : Word) &&& 0x3F = 0x12 ∧ (0x0000C349 : Word) &&& 0x3F = 0x09 ∧
      (0x0000B699 : Word) &&& 0x3F = 0x19 := by decide

theorem witness_readMem_inRange :
    ((at2 0).readReg 1).toNat < (at2 0).cfg.dmemWords ∧ (at2 0).cfg.dmemWords ≤ ((at2 0).readReg 2).toNat := by decide

theorem witness_writeMem_inRange :
    (effectiveAddr (at2 0) 1).toNat < (at2 0).cfg.dmemWords ∧ (at2 0).dmem.wf = true ∧ (1022 : Nat) ≠ 1023 ∧
      (at2 0).cfg.dmemWords ≤ (effectiveAddr (at2 0) 2).toNat := by decide

theorem witness_AbsOnlyCountsAsAStep : ReadyToFetch (at2 0x00000099) ∧ DecodesAtPc (at2 0x00000099) (.abs 2 0) := by decide

theorem witness_BoundsCheckPrecedesTheAccess :
    (Instr.writeMem 2 1 = .readMem 2 1 ∧ (2 : RegIdx) = 1 ∨ Instr.writeMem 2 1 = .writeMem 2 1 ∧ (2 : RegIdx) = 2) ∧
      (at2 0).cfg.dmemWords ≤ ((at2 0).readReg 2).toNat ∧ ((at2 0).readReg 1).toNat < (at2 0).cfg.dmemWords := by decide

theorem witness_MemoryInstructionPhases : ∃ b c, Instr.readMem 0 1 = .readMem b c ∨ Instr.readMem 0 1 = .writeMem b c :=
  ⟨0, 1, .inl rfl⟩

theorem witness_completes : ¬ RaisesOutOfBounds (.readMem 0 1) (at2 0x00000812) := by
  show ¬ 1024 ≤ ((at2 0x00000812).readReg 1).toNat
  decide

theorem witness_completes_ready : ReadyToFetch (at2 0x00000812) ∧ DecodesAtPc (at2 0x00000812) (.readMem 0 1) := by decide

theorem witness_InstructionsTouchOnlyTheirRegisters :
    (0 : RegIdx) ∉ readsRegs (.readMem 0 1) ∧ (0 : RegIdx) ∈ writesRegs (.readMem 0 1) ∧
      (1 : RegIdx) ∉ writesRegs (.readMem 0 1) ∧ nextInstr tail3 = none := by decide

theorem witness_no_instruction_completes : ∀ i, nextInstr tail3 = some i → RaisesOutOfBounds i tail3 := by
  have h : nextInstr tail3 = none := by decide
  intro i hi
  rw [h] at hi
  cases hi

/-! ### Memory, invariants, runs -/

theorem witness_step_of_load : step (launched 1) = .next (later 1 (launched 1)) := rfl

theorem witness_DataMemory_not_writeMem (b c : RegIdx) :
    Instr.loadConst 7 3 ≠ .writeMem b c ∧ Instr.loadConst 7 3 ≠ .readMem b c ∧
      nextInstr (launched 1) ≠ some (.writeMem b c) := by
  have h : nextInstr (launched 1) = some (.loadConst 1 1) := by decide
  rw [h]
  simp

/-- `WRITE_MEM r0, r0`, then `READ_MEM r1, r0`. -/
def writeThenRead : State := State.resetFor ⟨4, false, 9⟩ [0x09, 0x00, 0x00, 0x00, 0x52, 0x00, 0x00, 0x00]

theorem witness_ReadMemReturnsTheLatestWrite :
    launch ⟨4, false, 9⟩ writeThenRead.code = .ok writeThenRead ∧ ReadyToFetch (later 1 writeThenRead) ∧
      DecodesAtPc (later 1 writeThenRead) (.readMem 1 0) ∧
      ((later 1 writeThenRead).readReg 0).toNat < (later 1 writeThenRead).cfg.dmemWords := by decide

theorem witness_writeThenRead_steps : steps 1 writeThenRead = .next (later 1 writeThenRead) := rfl

theorem witness_MemoryCanonical : MemoryCanonical (at2 0x00000849) := by decide

theorem witness_PcAndCountersAgree : PcAndCountersAgree (at1 0x100080DD) := by decide

theorem witness_ValuesSmall : ValuesSmall (at2 0x00000812) := by decide

theorem witness_RecordConsistent : RecordConsistent (at1 0x3F) := ⟨by decide, rfl, rfl⟩

theorem witness_invariant_steps :
    (step (at2 0x00000849) = .next (later 1 (at2 0x00000849)) ∧ step (at2 0x00000812) = .next (later 1 (at2 0x00000812))) ∧
      step (at1 0x100080DD) = .next (later 1 (at1 0x100080DD)) := ⟨⟨rfl, rfl⟩, rfl⟩

theorem witness_CeilingStopsAtExactlyTheCount :
    steps 2 (launched 1) = .next (later 2 (launched 1)) ∧ (later 2 (launched 1)).halt.cause = .stepCeiling :=
  ⟨rfl, by decide⟩

theorem witness_CeilingRunIsAPrefix :
    launch { (⟨4, false, 9⟩ : RunConfig) with maxSteps := 1 } twoLoads = .ok (launched 1) ∧
      launch ⟨4, false, 9⟩ twoLoads = .ok (launched 9) ∧ (1 : Nat) ≤ 9 ∧ 1 < twoLoads.length / 4 ∧
      RunGoesOn (later 1 (launched 9)) := by decide

theorem witness_CeilingRunIsAPrefix_steps : steps 1 (launched 9) = .next (later 1 (launched 9)) := rfl

theorem witness_LenWarning_steps :
    steps 1 tail3 = .next (later 1 tail3) ∧ steps 1 State.reset = .next (later 1 State.reset) := ⟨rfl, rfl⟩

theorem witness_EveryRunEnds_ceiling_never_stops : twoLoads.length / 4 ≤ 2 := by decide

/-! ### The host's readout -/

theorem witness_SnapshotListsExactlyTheNonZeroState : (at2 0).dmem.wf = true ∧ (5 : Word).toNat ≤ (5 : Word).toNat := by
  decide

theorem witness_OutcomeReportsTheEnd_codes :
    RunGoesOn (at2 0x00001012) ∧ (outcome (later 1 State.reset)).haltCause = 1 ∧ (outcome (later 1 tail3)).haltCause = 2 ∧
      (outcome (later 1 (at1 0x3F))).haltCause = 3 ∧ (outcome (later 1 (at2 0x00001012))).haltCause = 4 ∧
      (outcome (later 1 ceiling0)).haltCause = 5 := by decide

theorem witness_AbsNoticePulsesExactlyOnAbs : absNotice (at2 0x00000099) = true := by decide

theorem witness_LenWarning_tail :
    launch RunConfig.default tail3.code = .ok tail3 ∧ (later 1 tail3).halt.cause = .malformedTail := by decide

theorem witness_LenWarning_end :
    launch RunConfig.default [] = .ok State.reset ∧ (later 1 State.reset).halt.cause = .endOfProgram := by decide

end Sys2Proof.Tests
end

/-! ## Registers, code memory and data memory (10_state.md)

What a completed instruction writes and what it depends on, what a step leaves alone, and the four statements of
10_state.md on registers and memories. -/

section
namespace Sys2Proof.Machine

variable {i : Instr} {s t : State} {r : RegIdx}

/-! ### The answer of exec -/

theorem exec_of_not_raises (h : ¬ RaisesOutOfBounds i s) : exec i s = .next (completed i s) := by
  rcases exec_eq i s with ⟨-, he⟩ | ⟨hr, -⟩
  · exact he
  · exact absurd hr h

theorem exec_of_raises (h : RaisesOutOfBounds i s) :
    exec i s = .next (s.raiseOutOfBounds (s.readReg (addressReg i))) := by
  rcases exec_eq i s with ⟨hn, -⟩ | ⟨-, -, he⟩
  · exact absurd h hn
  · exact he

/-- An instruction that raises reads its address register (R16, R101). -/
theorem addressReg_mem_readsRegs (h : RaisesOutOfBounds i s) : addressReg i ∈ readsRegs i := by
  cases i with
  | loadConst b c => exact h.elim
  | readMem b c => exact List.mem_cons_self
  | writeMem b c => exact List.mem_cons_self
  | abs b c => exact h.elim

/-! ### What a completed instruction writes -/

/-- A completed instruction leaves every register outside R16's writes column. -/
theorem completed_readReg_of_not_mem (h : r ∉ writesRegs i) : (completed i s).readReg r = s.readReg r := by
  cases i with
  | loadConst b c => simp_all [completed, writesRegs, State.readReg_writeReg]
  | readMem b c => simp_all [completed, writesRegs, State.readReg_writeReg]
  | writeMem b c => simp [completed]
  | abs b c => rfl

/-- Only a WRITE_MEM changes data memory (R31). -/
theorem completed_dmem (h : ∀ b c, i ≠ .writeMem b c) : (completed i s).dmem = s.dmem := by
  cases i with
  | loadConst b c => rfl
  | readMem b c => rfl
  | writeMem b c => exact absurd rfl (h b c)
  | abs b c => rfl

/-! ### What an instruction depends on: registers -/

theorem State.writeReg_writeReg_same (s : State) (r : RegIdx) (v w : Word) :
    (s.writeReg r v).writeReg r w = s.writeReg r w := by
  simp [State.writeReg]

theorem State.writeReg_comm (s : State) {q r : RegIdx} (v w : Word) (h : q ≠ r) :
    (s.writeReg r v).writeReg q w = (s.writeReg q w).writeReg r v := by
  have hn : r.toNat ≠ q.toNat := fun e => h (BitVec.eq_of_toNat_eq e.symm)
  simp only [State.writeReg, Vector.set_comm v w hn]

/-- A register outside the reads column can change without a change to the registers the instruction reads (R16). -/
theorem readReg_writeReg_of_mem_readsRegs {q : RegIdx} (v : Word) (hr : r ∉ readsRegs i) (hq : q ∈ readsRegs i) :
    (s.writeReg r v).readReg q = s.readReg q := by
  rw [State.readReg_writeReg, if_neg (ne_of_mem_of_not_mem hq hr)]

/-- Whether an instruction raises depends on the registers it reads only. -/
theorem raisesOutOfBounds_writeReg (v : Word) (hr : r ∉ readsRegs i) :
    RaisesOutOfBounds i (s.writeReg r v) ↔ RaisesOutOfBounds i s := by
  cases i with
  | loadConst b c => exact Iff.rfl
  | readMem b c =>
    have hc := readReg_writeReg_of_mem_readsRegs (s := s) (q := c) v hr (by simp [readsRegs])
    simp only [RaisesOutOfBounds, hc, State.writeReg_cfg]
  | writeMem b c =>
    have hb := readReg_writeReg_of_mem_readsRegs (s := s) (q := b) v hr (by simp [readsRegs])
    simp only [RaisesOutOfBounds, hb, State.writeReg_cfg]
  | abs b c => exact Iff.rfl

/-- A value put beforehand in a register that the instruction does not read is lost when the instruction writes that
register, and otherwise stands beside the instruction's effect (R16). -/
theorem completed_writeReg (v : Word) (hr : r ∉ readsRegs i) :
    completed i (s.writeReg r v) = if r ∈ writesRegs i then completed i s else (completed i s).writeReg r v := by
  cases i with
  | loadConst b c =>
    by_cases h : r = c
    · simp [completed, writesRegs, h, State.writeReg_writeReg_same]
    · simp [completed, writesRegs, h, State.writeReg_comm s v _ (Ne.symm h)]
  | readMem b c =>
    have hc := readReg_writeReg_of_mem_readsRegs (s := s) (q := c) v hr (by simp [readsRegs])
    by_cases h : r = b
    · subst h
      simp [completed, writesRegs, hc, State.writeReg_writeReg_same]
    · simp only [completed, writesRegs, List.mem_singleton, h, if_false, hc, State.writeReg_dmem,
        State.writeReg_comm s v _ (Ne.symm h)]
      rfl
  | writeMem b c =>
    have hb := readReg_writeReg_of_mem_readsRegs (s := s) (q := b) v hr (by simp [readsRegs])
    have hc := readReg_writeReg_of_mem_readsRegs (s := s) (q := c) v hr (by simp [readsRegs])
    simp only [completed, writesRegs, List.not_mem_nil, if_false, hb, hc]
    rfl
  | abs b c => rfl

/-- `exec` after a change to a register it does not read: the same answer, or the same but for that register, which then
the instruction did not write (R16). -/
theorem exec_writeReg (i : Instr) (s : State) (v : Word) (hr : r ∉ readsRegs i) :
    ∃ t, exec i s = .next t ∧
      (exec i (s.writeReg r v) = .next t ∨
        exec i (s.writeReg r v) = .next (t.writeReg r v) ∧ (r ∉ writesRegs i ∨ RaisesOutOfBounds i s)) := by
  by_cases h : RaisesOutOfBounds i s
  · have he := exec_of_raises ((raisesOutOfBounds_writeReg v hr).2 h)
    rw [readReg_writeReg_of_mem_readsRegs v hr (addressReg_mem_readsRegs h)] at he
    exact ⟨_, exec_of_raises h, .inr ⟨he, .inr h⟩⟩
  · have he := exec_of_not_raises (mt (raisesOutOfBounds_writeReg v hr).1 h)
    rw [completed_writeReg v hr] at he
    refine ⟨_, exec_of_not_raises h, ?_⟩
    split at he
    · exact .inl he
    · exact .inr ⟨he, .inl ‹_›⟩

/-! ### What an instruction depends on: code and data memory -/

theorem raisesOutOfBounds_code (i : Instr) (s : State) (code' : List Byte) :
    RaisesOutOfBounds i { s with code := code' } ↔ RaisesOutOfBounds i s := by cases i <;> rfl

theorem raisesOutOfBounds_dmem (i : Instr) (s : State) (m : Memory) :
    RaisesOutOfBounds i { s with dmem := m } ↔ RaisesOutOfBounds i s := by cases i <;> rfl

/-- A completed instruction carries code memory along and does nothing else with it (R30). -/
theorem completed_replaceCode (i : Instr) (s : State) (code' : List Byte) :
    completed i { s with code := code' } = { completed i s with code := code' } := by cases i <;> rfl

/-- Outside data memory, the effect of an instruction other than READ_MEM does not depend on data memory (R31). -/
theorem completed_replaceDmem (m : Memory) (h : ∀ b c, i ≠ .readMem b c) :
    { completed i { s with dmem := m } with dmem := (completed i s).dmem } = completed i s := by
  cases i with
  | loadConst b c => rfl
  | readMem b c => exact absurd rfl (h b c)
  | writeMem b c => rfl
  | abs b c => rfl

/-- `exec` from a state with other code answers the same next state with that code (R30). -/
theorem exec_replaceCode (i : Instr) (s : State) (code' : List Byte) :
    ∃ t, exec i s = .next t ∧ exec i { s with code := code' } = .next { t with code := code' } := by
  by_cases h : RaisesOutOfBounds i s
  · exact ⟨_, exec_of_raises h, exec_of_raises ((raisesOutOfBounds_code i s code').2 h)⟩
  · have he := exec_of_not_raises (mt (raisesOutOfBounds_code i s code').1 h)
    rw [completed_replaceCode] at he
    exact ⟨_, exec_of_not_raises h, he⟩

/-- `exec` of an instruction other than READ_MEM answers the same next state, data memory aside, from any data memory
(R31). -/
theorem exec_replaceDmem (s : State) (m : Memory) (hi : ∀ b c, i ≠ .readMem b c) :
    ∃ t t', exec i s = .next t ∧ exec i { s with dmem := m } = .next t' ∧ { t' with dmem := t.dmem } = t := by
  by_cases h : RaisesOutOfBounds i s
  · exact ⟨_, _, exec_of_raises h, exec_of_raises ((raisesOutOfBounds_dmem i s m).2 h), rfl⟩
  · exact ⟨_, _, exec_of_not_raises h, exec_of_not_raises (mt (raisesOutOfBounds_dmem i s m).1 h),
      completed_replaceDmem m hi⟩

theorem exec_readReg_of_not_mem (i : Instr) (s : State) :
    ∃ t, exec i s = .next t ∧ ∀ r : RegIdx, r ∉ writesRegs i → t.readReg r = s.readReg r := by
  by_cases h : RaisesOutOfBounds i s
  · exact ⟨_, exec_of_raises h, fun _ _ => State.raiseOutOfBounds_readReg ..⟩
  · exact ⟨_, exec_of_not_raises h, fun _ => completed_readReg_of_not_mem⟩

theorem exec_dmem (s : State) (hi : ∀ b c, i ≠ .writeMem b c) : ∃ t, exec i s = .next t ∧ t.dmem = s.dmem := by
  by_cases h : RaisesOutOfBounds i s
  · exact ⟨_, exec_of_raises h, State.raiseOutOfBounds_dmem ..⟩
  · exact ⟨_, exec_of_not_raises h, completed_dmem hi⟩

/-! ### What a step changes -/

/-- A step that completes an instruction has its effect; any other step keeps registers, memories, counters and
configuration. -/
theorem step_completes_or_keeps (h : step s = .next t) :
    (∃ i, ReadyToFetch s ∧ DecodesAtPc s i ∧ ¬ RaisesOutOfBounds i s ∧ t = (completed i s.advancePc).countInstr) ∨
      (SameRegs s t ∧ t.dmem = s.dmem ∧ t.cnt = s.cnt ∧ SameCodeAndConfig s t) := by
  have next_eq {u : State} (e : step s = .next u) : t = u := Host.Outcome.next.inj (h.symm.trans e)
  rcases step_cases s with ⟨-, e⟩ | ⟨-, -, e⟩ | ⟨-, -, -, e⟩ | ⟨-, -, -, e⟩ | ⟨-, k, -, e⟩ | ⟨-, i, -, -, -, e⟩ |
    ⟨hr, i, hd, ho, e⟩
  case inr.inr.inr.inr.inr.inr => exact .inl ⟨i, hr, hd, ho, next_eq e⟩
  all_goals
    rw [next_eq e]
    exact .inr ⟨fun _ => rfl, rfl, rfl, rfl, rfl⟩

theorem nextInstr_eq_some (h : ReadyToFetch s) (hd : DecodesAtPc s i) : nextInstr s = some i := by
  have hd' : decodeWord s.cfg.rsvCheck s.fetchWord = .ok i := hd
  rw [nextInstr, if_pos ((willFetch_iff s).2 h), hd']
  rfl

/-- The register of a step that completes its instruction is the instruction's own (R16). -/
theorem nextDest_of_completes (h : ReadyToFetch s) (hd : DecodesAtPc s i) (hn : ¬ RaisesOutOfBounds i s) :
    nextDest s = writesRegs i := by
  rw [nextDest, nextInstr_eq_some h hd]
  cases i with
  | loadConst b c => rfl
  | readMem b c => exact if_pos (Nat.not_le.1 hn)
  | writeMem b c => rfl
  | abs b c => rfl

/-- A step changes no register but its destination. -/
theorem step_readReg_of_not_mem (h : step s = .next t) (hr : r ∉ nextDest s) : t.readReg r = s.readReg r := by
  rcases step_completes_or_keeps h with ⟨i, hf, hd, hn, rfl⟩ | ⟨hregs, -⟩
  · rw [nextDest_of_completes hf hd hn] at hr
    simp [completed_readReg_of_not_mem hr]
  · exact hregs r

theorem step_sameRegs_of_no_instr (h : step s = .next t) (hi : nextInstr s = none) : SameRegs s t :=
  fun _ => step_readReg_of_not_mem h (by simp [nextDest, hi])

theorem step_sameCodeAndConfig (h : step s = .next t) : SameCodeAndConfig s t := by
  rcases step_completes_or_keeps h with ⟨i, -, -, -, rfl⟩ | ⟨-, -, -, hcc⟩
  · exact ⟨completed_code i s.advancePc, completed_cfg i s.advancePc⟩
  · exact hcc

theorem step_dmem (h : step s = .next t) (hi : ∀ b c, nextInstr s ≠ some (.writeMem b c)) : t.dmem = s.dmem := by
  rcases step_completes_or_keeps h with ⟨i, hf, hd, -, rfl⟩ | ⟨-, hdmem, -⟩
  · rw [nextInstr_eq_some hf hd] at hi
    exact completed_dmem fun b c hb => hi b c (congrArg some hb)
  · exact hdmem

/-! ### Runs -/

theorem steps_succ_eq_next_iff {k : Nat} : steps (k + 1) s = .next t ↔ ∃ u, step s = .next u ∧ steps k u = .next t := by
  rw [steps]
  cases step s <;> simp

theorem destLog_succ {k : Nat} (h : step s = .next t) : destLog (k + 1) s = nextDest s ++ destLog k t := by
  rw [destLog, h]

/-- A register that no completed instruction has written keeps its value. -/
theorem steps_readReg_of_not_mem {k : Nat} (h : steps k s = .next t) (hr : r ∉ destLog k s) :
    t.readReg r = s.readReg r := by
  induction k generalizing s with
  | zero => cases h; rfl
  | succ k ih =>
    obtain ⟨u, hu, hk⟩ := steps_succ_eq_next_iff.1 h
    rw [destLog_succ hu, List.mem_append, not_or] at hr
    obtain ⟨hdest, hrest⟩ := hr
    exact (ih hk hrest).trans (step_readReg_of_not_mem hu hdest)

/-- A launch that is not refused answers the reset state (R119). -/
theorem launch_eq_ok {cfg : RunConfig} {image : List Byte} (h : launch cfg image = .ok s) :
    s = State.resetFor cfg image := by
  unfold launch at h
  split_ifs at h
  exact (Except.ok.inj h).symm

@[simp] theorem State.resetFor_readReg (cfg : RunConfig) (image : List Byte) (r : RegIdx) :
    (State.resetFor cfg image).readReg r = 0 := by
  simp [State.resetFor, State.readReg]

/-! ### The statements -/

/-- Settles O17: a register outside the log of destinations keeps its reset value. -/
theorem unwrittenRegisterReadsZero : Obligations.UnwrittenRegisterReadsZero := by
  intro cfg image s hl
  obtain rfl := launch_eq_ok hl
  refine ⟨State.resetFor_readReg cfg image, fun k t r hk hr => ?_⟩
  rw [steps_readReg_of_not_mem hk hr, State.resetFor_readReg]

/-- Settles O38: the reads column by the two answers of `exec_writeReg`, the writes column by the instruction's effect. -/
theorem instructionsTouchOnlyTheirRegisters : Obligations.InstructionsTouchOnlyTheirRegisters := by
  refine ⟨exec_readReg_of_not_mem, fun i s r v hr => ?_, fun s t => step_sameRegs_of_no_instr⟩
  obtain ⟨t, ht, ht' | ⟨ht', hw⟩⟩ := exec_writeReg i s v hr
  · exact ⟨t, t, ht, ht', fun _ _ => rfl, fun _ _ => rfl, rfl, rfl, rfl, ⟨rfl, rfl⟩, rfl, rfl⟩
  · have other (q : RegIdx) (hq : q ≠ r) : (t.writeReg r v).readReg q = t.readReg q := by
      rw [State.readReg_writeReg, if_neg hq]
    have written (hm : r ∈ writesRegs i) (hn : ¬ RaisesOutOfBounds i s) :
        (t.writeReg r v).readReg r = t.readReg r := absurd hw (not_or.2 ⟨not_not.2 hm, hn⟩)
    exact ⟨t, _, ht, ht', other, written, rfl, rfl, rfl, ⟨rfl, rfl⟩, rfl, rfl⟩

/-- Settles O40: no instruction's effect reads or replaces code memory, and no step replaces it or the configuration. -/
theorem codeMemoryIsReadOnlyByTheFetch : Obligations.CodeMemoryIsReadOnlyByTheFetch := by
  refine ⟨fun cfg image s hl => ?_, fun s t => step_sameCodeAndConfig, exec_replaceCode⟩
  rw [launch_eq_ok hl]
  rfl

/-- Settles O41: of the four effects, WRITE_MEM's alone replaces data memory and READ_MEM's alone looks at it. -/
theorem dataMemoryReadersAndWriters : Obligations.DataMemoryReadersAndWriters := by
  refine ⟨fun cfg image s hl a => ?_, fun i s => exec_dmem s, fun i s => exec_replaceDmem s, fun s t => step_dmem⟩
  rw [launch_eq_ok hl]
  rfl

end Sys2Proof.Machine
end

/-! ## Data memory (20_memory.md)

The bounds check in front of the access, and sequential memory: a run's data memory is the launch's memory with the run's
log of stores written to it in order, so it reads as the log's latest stores. -/

section
namespace Sys2Proof.Machine

variable {i : Instr} {s t : State}

/-! ### The bounds check -/

/-- An instruction that raises answers the same whatever data memory holds, and carries it along untouched (R42). -/
theorem exec_replaceDmem_of_raises (m : Memory) (h : RaisesOutOfBounds i s) :
    exec i { s with dmem := m } =
      .next { s.raiseOutOfBounds (s.readReg (addressReg i)) with dmem := m } :=
  exec_of_raises ((raisesOutOfBounds_dmem i s m).2 h)

/-! ### The latest store of a log -/

/-- The oldest store counts only when no later one goes to the index. -/
theorem latestStore_cons (cell : Nat × Word) (log : List (Nat × Word)) (a : Nat) :
    latestStore (cell :: log) a = (latestStore log a).or (if cell.1 = a then some cell.2 else none) := by
  by_cases h : cell.1 = a
  · simp [latestStore, h, List.getLast?_cons, Option.or_some]
  · simp [latestStore, h]

/-! ### A log of stores written to data memory -/

/-- Data memory after the stores of a log, oldest first. -/
def Memory.writeAll (m : Memory) (log : List (Nat × Word)) : Memory :=
  log.foldl (fun m cell => m.write cell.1 cell.2) m

@[simp] theorem Memory.writeAll_nil (m : Memory) : m.writeAll [] = m := rfl

@[simp] theorem Memory.writeAll_cons (m : Memory) (cell : Nat × Word) (log : List (Nat × Word)) :
    m.writeAll (cell :: log) = (m.write cell.1 cell.2).writeAll log := rfl

theorem Memory.writeAll_append (m : Memory) (log log' : List (Nat × Word)) :
    m.writeAll (log ++ log') = (m.writeAll log).writeAll log' :=
  List.foldl_append

/-- A word reads as the latest store to it, or as before if there was none. -/
theorem Memory.read_writeAll (a : Nat) (log : List (Nat × Word)) {m : Memory} (h : m.wf = true) :
    (m.writeAll log).read a = (latestStore log a).getD (m.read a) := by
  induction log generalizing m with
  | nil => rfl
  | cons cell log ih =>
    rw [Memory.writeAll_cons, ih (Memory.write_wf _ _ h), latestStore_cons]
    by_cases ha : cell.1 = a
    · subst ha
      cases latestStore log cell.1 <;> simp [Memory.read_write_same _ _ h]
    · simp [ha, Memory.read_write_other cell.2 (Ne.symm ha) m]

/-! ### The stores of a step and of a run -/

theorem nextInstr_eq_some_iff : nextInstr s = some i ↔ ReadyToFetch s ∧ DecodesAtPc s i := by
  refine ⟨fun h => ?_, fun ⟨hf, hd⟩ => nextInstr_eq_some hf hd⟩
  unfold nextInstr at h
  split_ifs at h with hf
  refine ⟨(willFetch_iff s).1 hf, ?_⟩
  unfold DecodesAtPc
  cases hw : decodeWord s.cfg.rsvCheck s.fetchWord with
  | error k => rw [hw] at h; cases h
  | ok j => rw [hw] at h; cases h; rfl

theorem nextStore_eq_nil (h : ∀ b c, nextInstr s ≠ some (.writeMem b c)) : nextStore s = [] := by
  unfold nextStore
  split
  case h_1 b c hi => exact absurd hi (h b c)
  all_goals rfl

theorem nextStore_writeMem {b c : RegIdx} (h : nextInstr s = some (.writeMem b c)) :
    nextStore s = if (s.readReg b).toNat < s.cfg.dmemWords then [((s.readReg b).toNat, s.readReg c)] else [] := by
  rw [nextStore, h]

/-- A step does to data memory exactly what its store says (R94). -/
theorem step_dmem_eq_writeAll (h : step s = .next t) : t.dmem = s.dmem.writeAll (nextStore s) := by
  by_cases hw : ∃ b c, nextInstr s = some (.writeMem b c)
  · obtain ⟨b, c, hi⟩ := hw
    obtain ⟨hf, hd⟩ := nextInstr_eq_some_iff.1 hi
    rw [nextStore_writeMem hi]
    split_ifs with hr
    · cases h.symm.trans (step_completes hf hd (Nat.not_le.2 hr))
      rfl
    · cases h.symm.trans (step_outOfBounds hf hd (Nat.not_lt.1 hr))
      rfl
  · push Not at hw
    rw [nextStore_eq_nil hw, step_dmem h hw, Memory.writeAll_nil]

theorem storeLog_succ {k : Nat} (h : step s = .next t) : storeLog (k + 1) s = nextStore s ++ storeLog k t := by
  rw [storeLog, h]

/-- A run's data memory is its first memory with the run's stores written to it in order. -/
theorem steps_dmem_eq_writeAll {k : Nat} (h : steps k s = .next t) : t.dmem = s.dmem.writeAll (storeLog k s) := by
  induction k generalizing s with
  | zero => cases h; rfl
  | succ k ih =>
    obtain ⟨u, hu, hk⟩ := steps_succ_eq_next_iff.1 h
    rw [ih hk, step_dmem_eq_writeAll hu, storeLog_succ hu, Memory.writeAll_append]

/-- In a run from launch each word reads as the latest store to it, or as the reset's 0 (R31, R46). -/
theorem launched_steps_read {cfg : RunConfig} {image : List Byte} {k : Nat} (hl : launch cfg image = .ok s)
    (hk : steps k s = .next t) (a : Nat) : t.dmem.read a = (latestStore (storeLog k s) a).getD 0 := by
  have hwf : s.dmem.wf = true := by rw [launch_eq_ok hl, State.resetFor_dmem_wf]
  have hzero : s.dmem.read a = 0 := by rw [launch_eq_ok hl]; rfl
  rw [steps_dmem_eq_writeAll hk, Memory.read_writeAll a _ hwf, hzero]

/-- A step that runs an in-range READ_MEM leaves the addressed word in its destination (R93). -/
theorem step_readMem_inRange {b c : RegIdx} (hf : ReadyToFetch s) (hd : DecodesAtPc s (.readMem b c))
    (hr : (s.readReg c).toNat < s.cfg.dmemWords) :
    ∃ t, step s = .next t ∧ t.readReg b = s.dmem.read (s.readReg c).toNat :=
  ⟨_, step_completes hf hd (Nat.not_le.2 hr), by simp [completed]⟩

/-! ### The statements -/

/-- Settles O36: the check is the instruction's own raising condition, and a raise has the same answer for any memory. -/
theorem boundsCheckPrecedesTheAccess : Obligations.BoundsCheckPrecedesTheAccess := by
  intro b c ea i s hi
  have hea : addressReg i = ea ∧ (RaisesOutOfBounds i s ↔ s.cfg.dmemWords ≤ (s.readReg ea).toNat) := by
    rcases hi with ⟨rfl, rfl⟩ | ⟨rfl, rfl⟩ <;> exact ⟨rfl, Iff.rfl⟩
  obtain ⟨rfl, hraises⟩ := hea
  refine ⟨fun h => ?_, fun h => ?_⟩
  · have hr := hraises.2 h
    exact ⟨_, exec_of_raises hr, rfl, rfl, rfl, fun m => exec_replaceDmem_of_raises m hr⟩
  · have hn := mt hraises.1 (Nat.not_le.2 h)
    exact ⟨_, exec_of_not_raises hn, completed_runState i s, completed_halt i s⟩

/-- Settles O42: memory is the launch's with the logged stores written to it, and a READ_MEM reads that memory. -/
theorem readMemReturnsTheLatestWrite : Obligations.ReadMemReturnsTheLatestWrite := by
  intro cfg image s t k hl hk
  refine ⟨launched_steps_read hl hk, fun b c hf hd hr => ?_⟩
  obtain ⟨u, hu, hread⟩ := step_readMem_inRange hf hd hr
  exact ⟨u, hu, hread.trans (launched_steps_read hl hk _)⟩

end Sys2Proof.Machine
end

/-! ## Encoding (30_encoding.md)

What a word's opcode field says of the decoder, the encoded word read back field by field, the encoder's packing formula,
and the encoder on commands and on programs. -/

section
namespace Sys2Proof

/-! ### The opcode field and the decoder -/

theorem opcodeOfBits_eq_some_iff {a : BitVec 6} {op : Opcode} : opcodeOfBits a = some op ↔ a = op.code := by
  cases op <;> revert a <;> decide

/-- The values outside the closed set name no opcode (R59). -/
theorem opcodeOfBits_eq_none_iff {a : BitVec 6} : opcodeOfBits a = none ↔ a.toNat ∉ [9, 18, 25, 29] := by
  revert a; decide

/-- The decoder reports InvalidOpcode on its opcode field's account alone (R59). -/
theorem decodeWord_invalidOpcode_iff {rsv : Bool} {w : Word} :
    decodeWord rsv w = .error .invalidOpcode ↔ (opField w).toNat ∉ [9, 18, 25, 29] := by
  rw [← opcodeOfBits_eq_none_iff]
  cases h : opcodeOfBits (opField w) with
  | none => simp [decodeWord_invalid rsv h]
  | some op => rw [decodeWord_valid rsv h]; split <;> simp

/-- Without RSV_CHECK every word of a valid opcode decodes (R58, R60). -/
theorem decodeWord_false_of_mem {w : Word} (h : (opField w).toNat ∈ [9, 18, 25, 29]) :
    ∃ i, decodeWord false w = .ok i := by
  cases ho : opcodeOfBits (opField w) with
  | none => exact absurd h (opcodeOfBits_eq_none_iff.1 ho)
  | some op => exact ⟨extractFields op w, decodeWord_valid false ho⟩

/-! ### The fields of an encoded word -/

theorem field_eq_iff {n len : Nat} {x : BitVec n} {lo : Nat} {v : BitVec len} :
    x.extractLsb' lo len = v ↔ x.toNat / 2 ^ lo % 2 ^ len = v.toNat := by
  rw [← BitVec.toNat_inj, toNat_field]

/-- Format I, read back by the table of R53. -/
theorem encodeWord_loadConst_fields (b : BitVec 20) (c : RegIdx) :
    (encodeWord (.loadConst b c)).extractLsb' 0 6 = 29 ∧ (encodeWord (.loadConst b c)).extractLsb' 6 20 = b ∧
      (encodeWord (.loadConst b c)).extractLsb' 26 5 = c ∧ (encodeWord (.loadConst b c)).extractLsb' 31 1 = 0 := by
  simp only [field_eq_iff, encodeWord_loadConst_toNat, BitVec.ofNat_eq_ofNat, BitVec.toNat_ofNat]
  omega

/-- Format R, read back by the table of R54. -/
theorem formatR_fields {b c : RegIdx} {op : BitVec 6} {w : Word} (h : w = (0 : BitVec 16) ++ c ++ b ++ op) :
    w.extractLsb' 0 6 = op ∧ w.extractLsb' 6 5 = b ∧ w.extractLsb' 11 5 = c ∧ w.extractLsb' 16 16 = 0 := by
  have hw : w.toNat = op.toNat + b.toNat * 2 ^ 6 + c.toNat * 2 ^ 11 := h ▸ formatR_toNat b c op
  simp only [field_eq_iff, hw, BitVec.ofNat_eq_ofNat, BitVec.toNat_ofNat]
  omega

/-- The register family's words, by opcode value (R54, R58). -/
theorem encodeWord_formatR {b c : RegIdx} {i : Instr} {op : BitVec 6}
    (h : i = .readMem b c ∧ op = 18 ∨ i = .writeMem b c ∧ op = 9 ∨ i = .abs b c ∧ op = 25) :
    encodeWord i = (0 : BitVec 16) ++ c ++ b ++ op := by
  rcases h with ⟨rfl, rfl⟩ | ⟨rfl, rfl⟩ | ⟨rfl, rfl⟩ <;> rfl

/-- The encoded word carries opcode 29 for LOAD_CONST alone (R53). -/
theorem encodeWord_opcode_eq_29_iff (i : Instr) : (encodeWord i).extractLsb' 0 6 = 29 ↔ ∃ b c, i = .loadConst b c := by
  have register {b c : RegIdx} {op : BitVec 6}
      (h : i = .readMem b c ∧ op = 18 ∨ i = .writeMem b c ∧ op = 9 ∨ i = .abs b c ∧ op = 25) :
      (encodeWord i).extractLsb' 0 6 = op := (formatR_fields (encodeWord_formatR h)).1
  cases i with
  | loadConst b c => exact iff_of_true (encodeWord_loadConst_fields b c).1 ⟨b, c, rfl⟩
  | readMem b c => simp [register (.inl ⟨rfl, rfl⟩)]
  | writeMem b c => simp [register (.inr (.inl ⟨rfl, rfl⟩))]
  | abs b c => simp [register (.inr (.inr ⟨rfl, rfl⟩))]

/-! ### The packing formula -/

/-- A field shifted above everything packed so far adds up (R69). -/
theorem or_shiftLeft_toNat {x y : Word} {k : Nat} (hx : x.toNat < 2 ^ k) (hy : y.toNat * 2 ^ k < 2 ^ 32) :
    (x ||| y <<< k).toNat = x.toNat + y.toNat * 2 ^ k := by
  rw [BitVec.toNat_or, BitVec.toNat_shiftLeft, Nat.shiftLeft_eq, Nat.mod_eq_of_lt hy, Nat.lor_comm, ← Nat.shiftLeft_eq,
    ← Nat.shiftLeft_add_eq_or_of_lt hx, Nat.add_comm]

/-- A word packed from an opcode, a field at bit 6 and a field at bit `k`, none reaching into the next (R69). -/
theorem packed_toNat {op b c k : Nat} (ho : op < 2 ^ 6) (hb : op + b * 2 ^ 6 < 2 ^ k) (hk : k < 32)
    (hc : c * 2 ^ k < 2 ^ 32) :
    (BitVec.ofNat 32 op ||| (BitVec.ofNat 32 b <<< 6) ||| (BitVec.ofNat 32 c <<< k)).toNat =
      op + b * 2 ^ 6 + c * 2 ^ k := by
  have hk' : 2 ^ k < 2 ^ 32 := Nat.pow_lt_pow_right (by decide) hk
  have hop : (BitVec.ofNat 32 op).toNat = op := by rw [BitVec.toNat_ofNat]; omega
  have hbn : (BitVec.ofNat 32 b).toNat = b := by rw [BitVec.toNat_ofNat]; omega
  have hcn : (BitVec.ofNat 32 c).toNat = c := by
    have := Nat.le_mul_of_pos_right c (Nat.two_pow_pos k)
    rw [BitVec.toNat_ofNat]; omega
  have hlow := or_shiftLeft_toNat (x := BitVec.ofNat 32 op) (y := BitVec.ofNat 32 b) (k := 6) (by omega) (by omega)
  rw [or_shiftLeft_toNat (by rw [hlow, hop, hbn]; exact hb) (by rwa [hcn]), hlow, hop, hbn, hcn]

/-- Format I's word is R69's formula. -/
theorem packed_eq_encodeWord_loadConst {b c : Nat} (hb : b ≤ 0xFFFFF) (hc : c ≤ 31) :
    29#32 ||| (BitVec.ofNat 32 b <<< 6) ||| (BitVec.ofNat 32 c <<< 26) =
      encodeWord (.loadConst (BitVec.ofNat 20 b) (BitVec.ofNat 5 c)) := by
  apply BitVec.eq_of_toNat_eq
  rw [packed_toNat (by omega) (by omega) (by omega) (by omega), encodeWord_loadConst_toNat, BitVec.toNat_ofNat,
    BitVec.toNat_ofNat, Nat.mod_eq_of_lt (by omega : b < 2 ^ 20), Nat.mod_eq_of_lt (by omega : c < 2 ^ 5)]

/-- Format R's word is R69's formula. -/
theorem packed_eq_formatR {op b c : Nat} (ho : op < 2 ^ 6) (hb : b ≤ 31) (hc : c ≤ 31) :
    BitVec.ofNat 32 op ||| (BitVec.ofNat 32 b <<< 6) ||| (BitVec.ofNat 32 c <<< 11) =
      (0 : BitVec 16) ++ BitVec.ofNat 5 c ++ BitVec.ofNat 5 b ++ BitVec.ofNat 6 op := by
  apply BitVec.eq_of_toNat_eq
  rw [packed_toNat ho (by omega) (by omega) (by omega), formatR_toNat, BitVec.toNat_ofNat,
    BitVec.toNat_ofNat, BitVec.toNat_ofNat, Nat.mod_eq_of_lt ho, Nat.mod_eq_of_lt (by omega : b < 2 ^ 5),
    Nat.mod_eq_of_lt (by omega : c < 2 ^ 5)]

/-! ### Commands -/

/-- A command with natural operands passes when its opcode has a family and its operands fit that family's fields
(R67, R68). -/
theorem validate_natCast_iff {op : Int} {f : Format} (hf : formatOfCode op = some f) (b c : Nat) :
    (∃ g, Command.validate ⟨op, b, c⟩ = .ok g) ↔ b < 2 ^ f.bWidth ∧ c < 2 ^ f.cWidth := by
  simp only [validate_ok_iff, hf, Option.some.injEq, Int.natCast_nonneg, true_and, exists_eq_left']
  norm_cast

/-- The three register-family opcodes are of format R (R54, R58). -/
theorem formatOfCode_register {op : Int} (h : op ∈ [18, 9, 25]) : formatOfCode op = some .R := by
  fin_cases h <;> rfl

theorem encodeCommand_ok {cmd : Command} {f : Format} (h : cmd.validate = .ok f) :
    encodeCommand cmd = .ok (encode (instrOfCommand cmd)) := by
  rw [encodeCommand, h]

theorem encodeCommand_error {cmd : Command} {e : ValidationError} (h : cmd.validate = .error e) :
    encodeCommand cmd = .error e := by
  rw [encodeCommand, h]

theorem instrOfCommand_loadConst (b c : Nat) :
    instrOfCommand ⟨29, b, c⟩ = .loadConst (BitVec.ofNat 20 b) (BitVec.ofNat 5 c) := rfl

/-- The word of a register-family command, by its opcode number (R54, R69). -/
theorem encodeWord_instrOfCommand_register {op : Nat} (h : op ∈ [18, 9, 25]) (b c : Nat) :
    encodeWord (instrOfCommand ⟨op, b, c⟩) =
      (0 : BitVec 16) ++ BitVec.ofNat 5 c ++ BitVec.ofNat 5 b ++ BitVec.ofNat 6 op := by
  fin_cases h <;> rfl

/-! ### Programs -/

theorem firstInvalid_eq_none_iff {cmds : List Command} :
    firstInvalid cmds = none ↔ ∀ cmd ∈ cmds, ∃ f, cmd.validate = .ok f := by
  induction cmds with
  | nil => simp [firstInvalid]
  | cons cmd rest ih => cases h : cmd.validate <;> simp [firstInvalid, h, ih]

/-- A program of valid commands is the commands' bytes in input order (R70). -/
theorem encodeProgram_ok {cmds : List Command} (h : ∀ cmd ∈ cmds, ∃ f, cmd.validate = .ok f) :
    encodeProgram cmds = .ok (cmds.map fun cmd => encode (instrOfCommand cmd)).flatten := by
  rw [encodeProgram, firstInvalid_eq_none_iff.2 h, List.flatMap_def]

/-- A program with an invalid command gives an error (R70). -/
theorem encodeProgram_error {cmds : List Command} {cmd : Command} {e : ValidationError} (hm : cmd ∈ cmds)
    (h : cmd.validate = .error e) : ∃ e, encodeProgram cmds = .error e := by
  cases hf : firstInvalid cmds with
  | none =>
    obtain ⟨f, hok⟩ := firstInvalid_eq_none_iff.1 hf cmd hm
    cases hok.symm.trans h
  | some e => exact ⟨e, by rw [encodeProgram, hf]⟩

@[simp] theorem encode_length (i : Instr) : (encode i).length = 4 := rfl

/-! ### The statements -/

/-- Settles O4: each format's fields are read back from its word as a number. -/
theorem encodedWordPlacesFields : Obligations.EncodedWordPlacesFields :=
  ⟨encodeWord_loadConst_fields, fun _ _ _ _ h => formatR_fields (encodeWord_formatR h),
    encodeWord_opcode_eq_29_iff⟩

/-- Settles O5: a decoded word's opcode field is the code of the opcode whose fields were extracted. -/
theorem onlyFourOpcodesDecode : Obligations.OnlyFourOpcodesDecode := by
  have sameValues : [29, 18, 9, 25].Perm [9, 18, 25, 29] := by decide
  refine ⟨fun rsv w i h => ?_, fun w h => decodeWord_false_of_mem (sameValues.mem_iff.1 h)⟩
  obtain ⟨op, hop, -, rfl⟩ := decodeWord_ok h
  have hcode : (w.extractLsb' 0 6).toNat = op.code.toNat := congrArg BitVec.toNat (opcodeOfBits_eq_some_iff.1 hop)
  cases op with
  | loadConst => exact .inl ⟨hcode, _, _, rfl⟩
  | readMem => exact .inr (.inl ⟨hcode, _, _, rfl⟩)
  | writeMem => exact .inr (.inr (.inl ⟨hcode, _, _, rfl⟩))
  | abs => exact .inr (.inr (.inr ⟨hcode, _, _, rfl⟩))

/-- Settles O8: the ranges are the complement of the four values, and the step that fetches such a word raises. -/
theorem invalidOpcodeIsRejectedAndHalts : Obligations.InvalidOpcodeIsRejectedAndHalts := by
  refine ⟨fun rsv w => ?_, fun s hf hop => ?_⟩
  · rw [decodeWord_invalidOpcode_iff, opField]
    simp only [List.mem_cons, List.not_mem_nil, or_false]
    omega
  · exact ⟨_, Machine.step_decodeError hf (decodeWord_invalidOpcode_iff.2 hop), rfl, rfl, rfl⟩

/-- Settles O13: the packed word is the encoded word, whose reserved bits are 0. -/
theorem encoderPacksByTheFormula : Obligations.EncoderPacksByTheFormula := by
  refine ⟨fun b c hb hc => ?_, fun op b c hop hb hc => ?_, fun cmd e => encodeCommand_error⟩
  · obtain ⟨f, hok⟩ := (validate_natCast_iff (op := 29) rfl b c).2 ⟨Nat.lt_succ_of_le hb, Nat.lt_succ_of_le hc⟩
    obtain ⟨-, -, -, hreserved⟩ := encodeWord_loadConst_fields (BitVec.ofNat 20 b) (BitVec.ofNat 5 c)
    exact ⟨_, (packed_eq_encodeWord_loadConst hb hc).symm, hreserved, encodeCommand_ok hok⟩
  · have hformat : formatOfCode op = some .R := formatOfCode_register (by fin_cases hop <;> decide)
    obtain ⟨f, hok⟩ := (validate_natCast_iff hformat b c).2 ⟨Nat.lt_succ_of_le hb, Nat.lt_succ_of_le hc⟩
    have hword := encodeWord_instrOfCommand_register hop b c
    obtain ⟨-, -, -, hreserved⟩ := formatR_fields hword
    have hlt : op < 2 ^ 6 := by fin_cases hop <;> decide
    exact ⟨_, hword.trans (packed_eq_formatR hlt hb hc).symm, hreserved, encodeCommand_ok hok⟩

/-- Settles O14: the words are the encodings of the commands' instructions. -/
theorem encodeProgramIsAllOrNothing : Obligations.EncodeProgramIsAllOrNothing := by
  refine fun cmds => ⟨fun ⟨cmd, hm, e, h⟩ => encodeProgram_error hm h, fun h =>
    ⟨cmds.map fun cmd => encode (instrOfCommand cmd), ?_, encodeProgram_ok h, ?_⟩⟩
  · rw [List.map_map]
    refine List.map_congr_left fun cmd hm => ?_
    obtain ⟨f, hok⟩ := h cmd hm
    exact encodeCommand_ok hok
  · simp [List.length_flatten, Function.comp_def, Nat.mul_comm]

/-- Settles O11: the bounds are the widths of the fields of each family. -/
theorem validationBoundsAreExact : Obligations.ValidationBoundsAreExact := by
  refine fun b c => ⟨fun hc => ?_, fun op hop => ?_⟩
  · rw [validate_natCast_iff (f := .I) rfl]
    simp only [Format.bWidth, Format.cWidth]
    omega
  · rw [validate_natCast_iff (formatOfCode_register hop)]
    simp only [Format.bWidth, Format.cWidth]
    omega

end Sys2Proof
end

/-! ## The step (40_step.md)

The end of a run, its record and its frame, the pc's one advance, and the statements of 40_step.md on the program-counter
state machine. -/

section
namespace Sys2Proof.Machine

variable {s t : State}

/-! ### A step that ends the run -/

/-- A step that ends the run keeps everything but the pc, the run state and the record (R76, R77, R80, R82, R86). -/
theorem step_keeps_of_ends (hg : RunGoesOn s) (h : step s = .next t) (hc : t.halt.cause ≠ .none) :
    SameRegs s t ∧ SameMem s t ∧ t.cnt = s.cnt ∧ SameCodeAndConfig s t := by
  rcases step_completes_or_keeps h with ⟨i, -, -, -, rfl⟩ | ⟨hregs, hmem, hcnt, hcc⟩
  · exact absurd (by simpa using hg.2) hc
  · exact ⟨hregs, fun a => congrArg (Memory.read · a) hmem, hcnt, hcc⟩

/-- A step that ends the run records the pc at its start (R104). -/
theorem step_faultPc_of_ends (hg : RunGoesOn s) (h : step s = .next t) (hc : t.halt.cause ≠ .none) :
    t.halt.faultPc = s.pc := by
  rcases step_cases s with ⟨hn, -⟩ | ⟨-, -, e⟩ | ⟨-, -, -, e⟩ | ⟨-, -, -, e⟩ | ⟨-, k, -, e⟩ | ⟨-, i, -, -, -, e⟩ |
    ⟨-, i, -, -, e⟩
  · exact absurd hg hn
  all_goals cases h.symm.trans e
  · rfl
  · rfl
  · rfl
  · exact State.fetchAddr_advancePc s
  · exact State.fetchAddr_advancePc s
  · exact absurd (by simpa using hg.2) hc

/-- The condition under which a step of a run that goes on leaves a cause: the rows of R73's table, and the ceiling's
place among them (R85). -/
def CauseCondition (s : State) : HaltCause → Prop
  | .none => ReadyToFetch s ∧ ∃ i, DecodesAtPc s i ∧ ¬ RaisesOutOfBounds i s
  | .endOfProgram => s.code.length ≤ s.pc.toNat
  | .malformedTail => s.pc.toNat < s.code.length ∧ s.code.length < s.pc.toNat + 4
  | .decodeError => ReadyToFetch s ∧ ∃ k, decodeWord s.cfg.rsvCheck s.fetchWord = .error k
  | .outOfBounds => ReadyToFetch s ∧ ∃ i, DecodesAtPc s i ∧ RaisesOutOfBounds i s
  | .stepCeiling => s.pc.toNat + 4 ≤ s.code.length ∧ s.cfg.maxSteps ≤ s.cnt.ie.toNat

/-- The cause a step leaves tells the condition it met. -/
theorem step_causeCondition (hg : RunGoesOn s) (h : step s = .next t) : CauseCondition s t.halt.cause := by
  rcases step_cases s with ⟨hn, -⟩ | ⟨-, hend, e⟩ | ⟨-, hp, hq, e⟩ | ⟨-, hp, hm, e⟩ | ⟨hf, k, hd, e⟩ |
    ⟨hf, i, hd, hr, -, e⟩ | ⟨hf, i, hd, hr, e⟩
  · exact absurd hg hn
  all_goals cases h.symm.trans e
  · exact hend
  · exact ⟨hp, hq⟩
  · exact ⟨hp, hm⟩
  · exact ⟨hf, k, hd⟩
  · exact ⟨hf, i, hd, hr⟩
  · have hcause : (completed i s.advancePc).countInstr.halt.cause = .none := by simpa using hg.2
    rw [hcause]
    exact ⟨hf, i, hd, hr⟩

/-- The tail halt comes exactly with 1 to 3 bytes left (R77). -/
theorem step_malformedTail_iff (hg : RunGoesOn s) :
    (∃ t, step s = .next t ∧ t.halt.cause = .malformedTail) ↔
      s.pc.toNat < s.code.length ∧ s.code.length < s.pc.toNat + 4 := by
  refine ⟨fun ⟨t, h, hc⟩ => ?_, fun ⟨hp, hq⟩ => ⟨_, step_atTail hg hp hq, rfl⟩⟩
  have hcond := step_causeCondition hg h
  rwa [hc] at hcond

/-- The ceiling's stop leaves the run state as it was, also where the run had ended before (R73, R86). -/
theorem step_runState_of_stepCeiling (h : step s = .next t) (hc : t.halt.cause = .stepCeiling) :
    t.runState = s.runState := by
  by_cases hg : RunGoesOn s
  · have hcond := step_causeCondition hg h
    rw [hc] at hcond
    obtain ⟨hp, hm⟩ := hcond
    cases h.symm.trans (step_ceiling hg hp hm)
    exact hg.1.symm
  · cases h.symm.trans (step_ended hg)
    rfl

/-! ### The pc -/

/-- The pc's one advance is the fetch's (R22, R79). -/
theorem step_pc (h : step s = .next t) : t.pc = if ReadyToFetch s then s.pc + 4 else s.pc := by
  rcases step_cases s with ⟨hn, e⟩ | ⟨-, hp, e⟩ | ⟨-, -, hq, e⟩ | ⟨-, -, hm, e⟩ | ⟨hr, k, -, e⟩ | ⟨hr, i, -, -, -, e⟩ |
    ⟨hr, i, -, -, e⟩
  all_goals cases h.symm.trans e
  · exact (if_neg fun hr => hn hr.1).symm
  · exact (if_neg (by omega)).symm
  · exact (if_neg (by omega)).symm
  · exact (if_neg (by omega)).symm
  · exact (if_pos hr).symm
  · exact (if_pos hr).symm
  · simp [hr]

/-- No instruction writes the pc (R79). -/
theorem exec_pc (i : Instr) (s : State) : ∃ t, exec i s = .next t ∧ t.pc = s.pc := by
  by_cases h : RaisesOutOfBounds i s
  · exact ⟨_, exec_of_raises h, State.raiseOutOfBounds_pc ..⟩
  · exact ⟨_, exec_of_not_raises h, completed_pc i s⟩

/-! ### Runs -/

/-- A run that has ended stays as it is, however many steps follow (R83). -/
theorem steps_ended (h : ¬ RunGoesOn s) (k : Nat) : steps k s = .next s := by
  induction k with
  | zero => rfl
  | succ k ih => exact steps_succ_eq_next_iff.2 ⟨s, step_ended h, ih⟩

theorem not_runGoesOn_of_halted (h : s.runState = .halted) : ¬ RunGoesOn s := by simp [RunGoesOn, h]

/-- A launched run goes on, at pc 0 (R120). -/
theorem launch_runGoesOn {cfg : RunConfig} {image : List Byte} (h : launch cfg image = .ok s) :
    RunGoesOn s ∧ s.pc = 0 := by
  rw [launch_eq_ok h]
  exact ⟨⟨rfl, rfl⟩, rfl⟩

/-! ### The statements -/

/-- Settles O22: the tail halt ends the run, and its two bounds on an aligned pc leave one place. -/
theorem malformedTailHalts : Obligations.MalformedTailHalts := by
  refine ⟨fun s hg hp hq => ?_, fun s hg ha => ?_⟩
  · have h := step_atTail hg hp (by omega)
    exact ⟨_, h, rfl, rfl, rfl, step_keeps_of_ends hg h (by simp)⟩
  · rw [step_malformedTail_iff hg]
    omega

/-- Settles O26: each row is the step's equation under the row's condition. -/
theorem stateMachineTransitions : Obligations.StateMachineTransitions := by
  refine ⟨fun cfg image s hl => ?_, fun s h => step_ended (not_runGoesOn_of_halted h), fun s hg hrow => ?_,
    fun _ _ => step_runState_of_stepCeiling, fun s hg hp hm => ⟨_, step_ceiling hg hp hm, rfl⟩⟩
  · obtain ⟨⟨hrun, -⟩, hpc⟩ := launch_runGoesOn hl
    exact ⟨hrun, hpc⟩
  · by_cases hend : s.code.length ≤ s.pc.toNat
    · exact ⟨_, step_atEnd hg hend, by simp [hend]⟩
    by_cases htail : s.code.length - s.pc.toNat < 4
    · exact ⟨_, step_atTail hg (by omega) (by omega), by simp [hend, htail]⟩
    have hf : ReadyToFetch s := ⟨hg, by omega, by omega⟩
    simp only [if_neg hend, if_neg htail]
    cases hd : decodeWord s.cfg.rsvCheck s.fetchWord with
    | error k => exact ⟨_, step_decodeError hf hd, rfl, rfl⟩
    | ok i =>
      by_cases hr : RaisesOutOfBounds i s
      · exact ⟨_, step_outOfBounds hf hd hr, by simp [hr]⟩
      · exact ⟨_, step_completes hf hd hr, by simpa [hr] using hg⟩

/-- Settles O28: a Halted machine's run has ended. -/
theorem haltIsFinal : Obligations.HaltIsFinal :=
  ⟨fun _ _ _ h => steps_ended (not_runGoesOn_of_halted h), fun _ k h => steps_ended (not_runGoesOn_of_halted h) k⟩

/-- Settles O30: the pc by whether the step fetches, and the record's fetch address by the cause. -/
theorem pcAdvancesByFourAfterAFullFetch : Obligations.PcAdvancesByFourAfterAFullFetch := by
  refine ⟨fun s t h => ?_, exec_pc⟩
  have hpc := step_pc h
  refine ⟨fun hf => by rw [hpc, if_pos hf], fun hf => by rw [hpc, if_neg hf], fun hg hc => ?_, fun hg hc => ?_⟩
  · have hfault := step_faultPc_of_ends hg h (by rcases hc with hc | hc <;> simp [hc])
    have hf : ReadyToFetch s := by
      have hcond := step_causeCondition hg h
      rcases hc with hc | hc <;> rw [hc] at hcond <;> exact hcond.1
    exact ⟨hfault, by rw [hpc, if_pos hf, hfault]⟩
  · have hfault := step_faultPc_of_ends hg h (by rcases hc with hc | hc <;> simp [hc])
    have hf : ¬ ReadyToFetch s := by
      have hcond := step_causeCondition hg h
      rcases hc with hc | hc <;> simp only [hc, CauseCondition] at hcond <;> omega
    exact ⟨hfault, by rw [hpc, if_neg hf, hfault]⟩

/-- Settles O21: the halt at the end of the code, which an empty image's launch already has reached. -/
theorem endOfProgramHalts : Obligations.EndOfProgramHalts := by
  refine ⟨fun s hg hp => ?_, fun cfg s hl => ?_⟩
  · have h := step_atEnd hg hp
    exact ⟨_, h, rfl, rfl, rfl, step_keeps_of_ends hg h (by simp)⟩
  · obtain rfl := launch_eq_ok hl
    exact ⟨_, step_atEnd (launch_runGoesOn hl).1 (Nat.zero_le _), rfl, rfl, rfl⟩

/-- Settles O23: the raise after the fetch's advance ends the run. -/
theorem decodeFailureHalts : Obligations.DecodeFailureHalts := by
  intro s k hf hd
  have h := step_decodeError hf hd
  exact ⟨_, h, rfl, rfl, rfl, rfl, step_keeps_of_ends hf.1 h (by simp)⟩

/-- Settles O24: the raise after the fetch's advance ends the run. -/
theorem outOfBoundsHaltsAndChangesNothing : Obligations.OutOfBoundsHaltsAndChangesNothing := by
  intro s i hf hd hr
  have h := step_outOfBounds hf hd hr
  exact ⟨_, h, rfl, rfl, rfl, step_keeps_of_ends hf.1 h (by simp)⟩

end Sys2Proof.Machine
end

/-! ## The immediate family (41_immediate_family.md)

The opcode test by mask, which serves every family, and the statement on LOAD_CONST. -/

section
namespace Sys2Proof

/-- The opcode field is what the mask of R55 leaves of the word. -/
theorem opField_toNat_eq_mask (w : Word) : (opField w).toNat = (w &&& 0x3F).toNat := by
  rw [opField, toNat_field, Nat.pow_zero, Nat.div_one, BitVec.toNat_and]
  exact (Nat.and_two_pow_sub_one_eq_mod w.toNat 6).symm

/-- Without RSV_CHECK the masked opcode alone decides the instruction (R60, R62). -/
theorem decodeWord_false_of_mask_eq_code {w : Word} (op : Opcode) (h : w &&& 0x3F = op.code.setWidth 32) :
    decodeWord false w = .ok (extractFields op w) := by
  have hcode : opField w = op.code := by
    apply BitVec.eq_of_toNat_eq
    rw [opField_toNat_eq_mask, h, BitVec.toNat_setWidth_of_le (by decide)]
  exact decodeWord_valid false (opcodeOfBits_eq_some_iff.2 hcode)

end Sys2Proof

namespace Sys2Proof.Machine

/-- The constant's register holds the constant itself: zero extension keeps its value (R90). -/
theorem writeReg_constOperand_readReg_toNat (b : BitVec 20) (c : RegIdx) (s : State) :
    ((s.writeReg c (constOperand b)).readReg c).toNat = b.toNat := by
  rw [State.readReg_writeReg_same, constOperand, BitVec.toNat_setWidth_of_le (by decide)]

/-- Settles O32: the mask selects LOAD_CONST's fields, and its one effect is the write of x[C]. -/
theorem loadConstWritesTheConstant : Obligations.LoadConstWritesTheConstant := by
  refine ⟨fun w h => decodeWord_false_of_mask_eq_code .loadConst h, fun b c s =>
    ⟨_, exec_loadConst b c s, writeReg_constOperand_readReg_toNat b c s, fun r hr => ?_, fun _ => rfl, rfl, rfl,
      ⟨rfl, rfl⟩, rfl, rfl⟩⟩
  rw [State.readReg_writeReg, if_neg hr]

end Sys2Proof.Machine
end

/-! ## The register family (42_register_family.md)

The two answers of a memory instruction: the raise with its frame, which READ_MEM and WRITE_MEM share, and the completed
access. -/

section
namespace Sys2Proof.Machine

variable {i : Instr} {s : State}

/-- An instruction that raises halts with the address it refused and keeps everything but the run state and the record
(R82, R92, R105). -/
theorem exec_halts_of_raises (h : RaisesOutOfBounds i s) :
    ∃ t, exec i s = .next t ∧ t.runState = .halted ∧ t.halt.cause = .outOfBounds ∧
      t.halt.faultInfo = s.readReg (addressReg i) ∧ SameRegs s t ∧ SameMem s t ∧ t.cnt = s.cnt ∧ t.pc = s.pc ∧
      SameCodeAndConfig s t :=
  ⟨_, exec_of_raises h, rfl, rfl, rfl, fun _ => rfl, fun _ => rfl, rfl, rfl, rfl, rfl⟩

/-- A completed READ_MEM leaves in x[B] the word at the address x[C] held before, also when B = C (R17, R93). -/
@[simp] theorem completed_readMem_readReg (b c : RegIdx) (s : State) :
    (completed (.readMem b c) s).readReg b = s.dmem.read (s.readReg c).toNat :=
  State.readReg_writeReg_same s b _

/-! ### The statements -/

/-- Settles O33: in range the completed access writes x[B] alone, out of range the instruction raises. -/
theorem readMemLoadsTheWord : Obligations.ReadMemLoadsTheWord := by
  refine ⟨fun w h => decodeWord_false_of_mask_eq_code .readMem h, fun b c s h => ?_, fun b c s h =>
    exec_halts_of_raises (i := .readMem b c) h⟩
  have hn : ¬ RaisesOutOfBounds (.readMem b c) s := Nat.not_le.2 h
  have others (r : RegIdx) (hr : r ≠ b) : (completed (.readMem b c) s).readReg r = s.readReg r :=
    completed_readReg_of_not_mem (mt List.mem_singleton.1 hr)
  exact ⟨_, exec_of_not_raises hn, completed_readMem_readReg b c s, others, fun _ => rfl, rfl, rfl, rfl, rfl, ⟨rfl, rfl⟩,
    rfl, rfl⟩

/-- Settles O34: in range the completed access writes one word of data memory, out of range the instruction raises. -/
theorem writeMemStoresTheRegister : Obligations.WriteMemStoresTheRegister := by
  refine ⟨fun w h => decodeWord_false_of_mask_eq_code .writeMem h, fun b c s h => ?_, fun b c s h =>
    exec_halts_of_raises (i := .writeMem b c) h⟩
  have hn : ¬ RaisesOutOfBounds (.writeMem b c) s := Nat.not_le.2 h
  exact ⟨_, exec_of_not_raises hn, Memory.read_write_same _ _, fun a ha => Memory.read_write_other _ ha s.dmem,
    fun _ => rfl, rfl, rfl, rfl, rfl, ⟨rfl, rfl⟩, rfl, rfl⟩

/-- Settles O37: the answer is the raise or the completed access, by the check. -/
theorem memoryInstructionPhases : Obligations.MemoryInstructionPhases := by
  rintro i s -
  refine ⟨fun h => ?_, fun h => ⟨_, exec_of_not_raises h, ?_, ?_⟩⟩
  · obtain ⟨t, ht, -, -, -, hregs, hmem, hcnt, -⟩ := exec_halts_of_raises h
    exact ⟨t, ht, hregs, hmem, hcnt⟩
  · rintro b c rfl
    exact ⟨completed_readMem_readReg b c s, rfl⟩
  · rintro b c rfl
    exact ⟨rfl, rfl⟩

end Sys2Proof.Machine
end

/-! ## Exceptions (60_exceptions.md)

The instructions that raise OutOfBounds, by name, and the statement on where it is raised. -/

section
namespace Sys2Proof.Machine

/-- The rows of R101: READ_MEM raises on the address in x[C], WRITE_MEM on the address in x[B], and no other instruction
raises. -/
theorem raisesOutOfBounds_iff (i : Instr) (s : State) :
    RaisesOutOfBounds i s ↔
      (∃ b c, i = .readMem b c ∧ s.cfg.dmemWords ≤ (s.readReg c).toNat) ∨
      (∃ b c, i = .writeMem b c ∧ s.cfg.dmemWords ≤ (s.readReg b).toNat) := by
  cases i <;> simp [RaisesOutOfBounds]

/-- Settles O25: a raise halts with its cause and keeps the state, and a completed instruction leaves the run state and
the record of a run that goes on. -/
theorem outOfBoundsIsRaisedExactlyByMemoryInstructions :
    Obligations.OutOfBoundsIsRaisedExactlyByMemoryInstructions := by
  rintro i s ⟨hrun, hcause⟩
  rw [← raisesOutOfBounds_iff]
  by_cases h : RaisesOutOfBounds i s
  · obtain ⟨t, ht, hhalted, hoob, -, hregs, hmem, hcnt, -⟩ := exec_halts_of_raises h
    exact ⟨t, ht, by simp [h, hoob], by simp [hhalted, hoob], fun _ => ⟨hregs, hmem, hcnt⟩⟩
  · exact ⟨_, exec_of_not_raises h, by simp [h, hcause], by simp [hrun, hcause], by simp [hcause]⟩

end Sys2Proof.Machine
end

/-! ## The round trip and the decoder's errors (30_encoding.md)

Decoding as the inverse of encoding, re-encoding as the clearing of the reserved bits, and which error a word, a chunk or a
command gives. -/

section
namespace Sys2Proof

variable {w w' : Word} {op : Opcode} {rsv : Bool}

/-! ### The decoder on words of a valid opcode -/

/-- A word with acceptable reserved bits decodes to the fields of its opcode (R62). -/
theorem decodeWord_eq_extractFields (hop : opField w = op.code) (hr : rsv = true → reservedSet op.format w = false) :
    decodeWord rsv w = .ok (extractFields op w) := by
  rw [decodeWord_valid rsv (opcodeOfBits_eq_some_iff.2 hop)]
  cases rsv with
  | false => rfl
  | true => rw [hr rfl]; rfl

theorem decodeWord_ne_malformedInstruction (rsv : Bool) (w : Word) :
    decodeWord rsv w ≠ .error .malformedInstruction := by
  cases ho : opcodeOfBits (opField w) with
  | none => rw [decodeWord_invalid rsv ho]; simp
  | some op => rw [decodeWord_valid rsv ho]; split <;> simp

theorem exists_opcode_iff {p : Opcode → Prop} :
    (∃ op, p op) ↔ p .loadConst ∨ p .readMem ∨ p .writeMem ∨ p .abs :=
  ⟨fun ⟨op, h⟩ => by cases op <;> simp [h], by rintro (h | h | h | h) <;> exact ⟨_, h⟩⟩

/-- ReservedBits is RSV_CHECK's answer to a valid opcode with a reserved bit set, and to nothing else (R60). -/
theorem decodeWord_reservedBits_iff :
    decodeWord rsv w = .error .reservedBits ↔
      rsv = true ∧ ∃ op : Opcode, opField w = op.code ∧ reservedSet op.format w = true := by
  simp only [← opcodeOfBits_eq_some_iff]
  cases ho : opcodeOfBits (opField w) with
  | none => simp [decodeWord_invalid rsv ho]
  | some op => rw [decodeWord_valid rsv ho]; split <;> simp_all

/-- A whole word's decode error is InvalidOpcode or ReservedBits (R59, R60). -/
theorem decodeWord_error_cases {k : DecodeError} (h : decodeWord rsv w = .error k) :
    k = .invalidOpcode ∨ k = .reservedBits := by
  cases k with
  | invalidOpcode => exact .inl rfl
  | malformedInstruction => exact absurd h (decodeWord_ne_malformedInstruction rsv w)
  | reservedBits => exact .inr rfl

/-- RSV_CHECK makes a difference to words with a reserved bit set only (R60, R62). -/
theorem decodeWord_true_eq_false (h : decodeWord true w ≠ .error .reservedBits) :
    decodeWord true w = decodeWord false w := by
  cases ho : opcodeOfBits (opField w) with
  | none => rw [decodeWord_invalid _ ho, decodeWord_invalid _ ho]
  | some op =>
    have hop := opcodeOfBits_eq_some_iff.1 ho
    have hr : reservedSet op.format w = false := by
      rw [← Bool.not_eq_true]
      exact fun hset => h (decodeWord_reservedBits_iff.2 ⟨rfl, op, hop, hset⟩)
    rw [decodeWord_eq_extractFields hop fun _ => hr, decodeWord_eq_extractFields hop (by simp)]

theorem decodeChunk_malformedInstruction_iff {chunk : List Byte} :
    decodeChunk rsv chunk = .error .malformedInstruction ↔ chunk.length ≠ 4 := by
  unfold decodeChunk
  split
  · simp [decodeWord_ne_malformedInstruction]
  case h_2 hne =>
    refine iff_of_true rfl fun h4 => ?_
    obtain ⟨a, b, c, d, rfl⟩ := List.length_eq_four.1 h4
    exact hne a b c d rfl

/-! ### The reserved bits -/

/-- The reserved bits of the word's own format, by the opcode value (R53, R54). -/
theorem reservedSet_eq_false_iff (hop : opField w = op.code) :
    reservedSet op.format w = false ↔
      if (w.extractLsb' 0 6).toNat = 29 then w.extractLsb' 31 1 = 0 else w.extractLsb' 16 16 = 0 := by
  rw [show w.extractLsb' 0 6 = op.code from hop]
  cases op <;> simp [reservedSet, Opcode.format, Opcode.code]

/-- The bits that a mask covers are 0 where the mask leaves nothing (R55). -/
theorem field_eq_zero_of_and_eq_zero {m : Word} {lo len : Nat} (hm : m.extractLsb' lo len = BitVec.allOnes len)
    (h : w &&& m = 0) : w.extractLsb' lo len = 0 := by
  calc w.extractLsb' lo len = (w &&& m).extractLsb' lo len := by
        rw [BitVec.extractLsb'_and, hm, BitVec.and_allOnes]
    _ = 0 := by rw [h]; simp

/-- The reserved mask of `fieldLayout` covers the reserved bits (R55, R60). -/
theorem reservedSet_eq_false_of_mask (f : Format) (h : w &&& (fieldLayout f).reservedMask = 0) :
    reservedSet f w = false := by
  cases f with
  | I => simp [reservedSet, field_eq_zero_of_and_eq_zero (lo := 31) (len := 1) (by decide) h]
  | R => simp [reservedSet, field_eq_zero_of_and_eq_zero (lo := 16) (len := 16) (by decide) h]

/-- A field is its masked shift (R55). -/
theorem field_toNat_eq_shift_mask {m : Word} {len : Nat} (lo : Nat) (hm : m.toNat = 2 ^ len - 1) :
    (w.extractLsb' lo len).toNat = ((w >>> lo) &&& m).toNat := by
  rw [BitVec.toNat_and, hm, Nat.and_two_pow_sub_one_eq_mod, BitVec.toNat_ushiftRight, BitVec.extractLsb'_toNat]

/-- The register family by opcode value: its fields, and what the port makes of them (R54, R58, R64). -/
theorem exists_registerOpcode {n : Nat} {mk : RegIdx → RegIdx → Instr}
    (h : n = 18 ∧ mk = Instr.readMem ∨ n = 9 ∧ mk = Instr.writeMem ∨ n = 25 ∧ mk = Instr.abs) :
    ∃ op : Opcode, op.code.toNat = n ∧ op.format = .R ∧
      (∀ w : Word, extractFields op w = mk (w.extractLsb' 6 5) (w.extractLsb' 11 5)) ∧
      ∀ b c : RegIdx, (mk b c).decoderFields = ⟨op.code, .R, b.setWidth 20, c⟩ := by
  rcases h with ⟨rfl, rfl⟩ | ⟨rfl, rfl⟩ | ⟨rfl, rfl⟩
  · exact ⟨.readMem, rfl, rfl, fun _ => rfl, fun _ _ => rfl⟩
  · exact ⟨.writeMem, rfl, rfl, fun _ => rfl, fun _ _ => rfl⟩
  · exact ⟨.abs, rfl, rfl, fun _ => rfl, fun _ _ => rfl⟩

/-! ### The round trip -/

/-- An encoded word holds its instruction's opcode and fields, with no reserved bit set (R53, R54). -/
theorem encodeWord_fields (i : Instr) :
    ∃ op : Opcode, opField (encodeWord i) = op.code ∧ reservedSet op.format (encodeWord i) = false ∧
      extractFields op (encodeWord i) = i := by
  cases i with
  | loadConst b c =>
    obtain ⟨hop, hb, hc, hr⟩ := encodeWord_loadConst_fields b c
    exact ⟨.loadConst, hop, by simp [reservedSet, Opcode.format, hr], by rw [extractFields, hb, hc]⟩
  | readMem b c =>
    obtain ⟨hop, hb, hc, hr⟩ := formatR_fields (w := encodeWord (.readMem b c)) rfl
    exact ⟨.readMem, hop, by simp [reservedSet, Opcode.format, hr], by rw [extractFields, hb, hc]⟩
  | writeMem b c =>
    obtain ⟨hop, hb, hc, hr⟩ := formatR_fields (w := encodeWord (.writeMem b c)) rfl
    exact ⟨.writeMem, hop, by simp [reservedSet, Opcode.format, hr], by rw [extractFields, hb, hc]⟩
  | abs b c =>
    obtain ⟨hop, hb, hc, hr⟩ := formatR_fields (w := encodeWord (.abs b c)) rfl
    exact ⟨.abs, hop, by simp [reservedSet, Opcode.format, hr], by rw [extractFields, hb, hc]⟩

@[simp] theorem decodeWord_encodeWord (rsv : Bool) (i : Instr) : decodeWord rsv (encodeWord i) = .ok i := by
  obtain ⟨op, hop, hr, hi⟩ := encodeWord_fields i
  rw [decodeWord_eq_extractFields hop fun _ => hr, hi]

@[simp] theorem decodeChunk_encode (rsv : Bool) (i : Instr) : decodeChunk rsv (encode i) = .ok i := by
  rw [encode, decodeChunk_bytesOfWord, decodeWord_encodeWord]

/-- The fields of the exact widths are in range (R63, R67). -/
theorem validate_toCommand (i : Instr) : ∃ f, i.toCommand.validate = .ok f := by
  cases i with
  | loadConst b c => exact (validate_natCast_iff (f := .I) rfl _ _).2 ⟨b.isLt, c.isLt⟩
  | readMem b c => exact (validate_natCast_iff (f := .R) rfl _ _).2 ⟨b.isLt, c.isLt⟩
  | writeMem b c => exact (validate_natCast_iff (f := .R) rfl _ _).2 ⟨b.isLt, c.isLt⟩
  | abs b c => exact (validate_natCast_iff (f := .R) rfl _ _).2 ⟨b.isLt, c.isLt⟩

theorem wellFormed_eq_true (i : Instr) : i.wellFormed = true := by
  obtain ⟨f, hf⟩ := validate_toCommand i
  rw [Instr.wellFormed, hf]

/-- A field holds an operand that fits it (R67). -/
theorem ofInt_toNat_of_fits {k : Nat} {x : Int} (h0 : 0 ≤ x) (h : x < 2 ^ k) :
    ((BitVec.ofInt k x).toNat : Int) = x := by
  rw [BitVec.toNat_ofInt, Int.emod_eq_of_lt h0 (by exact_mod_cast h), Int.toNat_of_nonneg h0]

/-- A valid command's operands survive in the fields of its family (R66, R67). -/
theorem toCommand_instrOfCommand {cmd : Command} {f : Format} (h : cmd.validate = .ok f) :
    (instrOfCommand cmd).toCommand = cmd := by
  obtain ⟨n, b, c⟩ := cmd
  obtain ⟨hf, ⟨hb, hb'⟩, hc, hc'⟩ := (validate_ok_iff _ _).1 h
  have hb := ofInt_toNat_of_fits hb hb'
  have hc := ofInt_toNat_of_fits hc hc'
  rcases formatOfCode_eq n with ⟨rfl, he⟩ | ⟨rfl | rfl | rfl, he⟩ | ⟨-, -, -, -, he⟩
  all_goals cases hf.symm.trans he
  all_goals exact congrArg₂ (Command.mk _) hb hc

/-- Re-encoding a word's fields gives the word back but for its reserved bits (R53, R54). -/
theorem encodeWord_extractFields_eq_iff (hop : opField w = op.code) :
    encodeWord (extractFields op w) = w ↔ reservedSet op.format w = false := by
  have hlow : w.toNat / 2 ^ 0 % 2 ^ 6 = op.code.toNat := field_eq_iff.1 hop
  have formatR {v : Word} (hv : v = (0 : BitVec 16) ++ w.extractLsb' 11 5 ++ w.extractLsb' 6 5 ++ op.code) :
      v = w ↔ reservedSet .R w = false := by
    have hnat : v.toNat = op.code.toNat + w.toNat / 2 ^ 6 % 2 ^ 5 * 2 ^ 6 + w.toNat / 2 ^ 11 % 2 ^ 5 * 2 ^ 11 := by
      rw [hv, formatR_toNat, toNat_field, toNat_field]
    have hbits : reservedSet .R w = false ↔ w.toNat / 2 ^ 16 % 2 ^ 16 = 0 := by
      simp [reservedSet, field_eq_iff]
    rw [hbits, ← BitVec.toNat_inj, hnat]
    omega
  cases op with
  | loadConst =>
    have hbits : reservedSet .I w = false ↔ w.toNat / 2 ^ 31 % 2 ^ 1 = 0 := by
      simp [reservedSet, field_eq_iff]
    have hcode : Opcode.loadConst.code.toNat = 29 := rfl
    rw [Opcode.format, hbits, ← BitVec.toNat_inj, extractFields, encodeWord_loadConst_toNat, toNat_field, toNat_field]
    omega
  | readMem => exact formatR rfl
  | writeMem => exact formatR rfl
  | abs => exact formatR rfl

/-! ### Words that agree on their low bits -/

theorem field_congr {n lo len : Nat} (h : w.extractLsb' 0 n = w'.extractLsb' 0 n) (hn : lo + len ≤ n) :
    w.extractLsb' lo len = w'.extractLsb' lo len := by
  have low (v : Word) : v.extractLsb' lo len = (v.extractLsb' 0 n).extractLsb' lo len := by
    ext k hk
    simp [show lo + k < n by omega]
  rw [low w, low w', h]

/-- The number of a word's low bits that its format gives a meaning: the rest are reserved (R53, R54). -/
def Format.usedBits : Format → Nat
  | .I => 31
  | .R => 16

theorem extractFields_congr (h : w.extractLsb' 0 op.format.usedBits = w'.extractLsb' 0 op.format.usedBits) :
    extractFields op w = extractFields op w' := by
  have field (lo len : Nat) (hn : lo + len ≤ op.format.usedBits) : w.extractLsb' lo len = w'.extractLsb' lo len :=
    field_congr h hn
  cases op with
  | loadConst => rw [extractFields, extractFields, field 6 20 (by decide), field 26 5 (by decide)]
  | readMem => rw [extractFields, extractFields, field 6 5 (by decide), field 11 5 (by decide)]
  | writeMem => rw [extractFields, extractFields, field 6 5 (by decide), field 11 5 (by decide)]
  | abs => rw [extractFields, extractFields, field 6 5 (by decide), field 11 5 (by decide)]

/-- Without RSV_CHECK the reserved bits of a word of a valid opcode do not matter (R60). -/
theorem decodeWord_false_congr (hop : opField w = op.code)
    (h : w.extractLsb' 0 op.format.usedBits = w'.extractLsb' 0 op.format.usedBits) :
    decodeWord false w = decodeWord false w' := by
  have hop' : opField w' = op.code := (field_congr h (by cases op <;> decide)).symm.trans hop
  rw [decodeWord_eq_extractFields hop (by simp), decodeWord_eq_extractFields hop' (by simp), extractFields_congr h]

/-! ### Validation -/

theorem validate_invalidOpcode_iff {cmd : Command} :
    cmd.validate = .error .invalidOpcode ↔ formatOfCode cmd.opcode = none := by
  unfold Command.validate
  split
  · simp_all
  · split <;> simp_all

/-- A command of a valid opcode is out of range exactly when an operand does not fit its field (R67). -/
theorem validate_outOfRange {cmd : Command} {f : Format} (hf : formatOfCode cmd.opcode = some f)
    (h : ¬ ((0 ≤ cmd.b ∧ cmd.b < 2 ^ f.bWidth) ∧ 0 ≤ cmd.c ∧ cmd.c < 2 ^ f.cWidth)) :
    cmd.validate = .error .operandOutOfRange := by
  cases hv : cmd.validate with
  | ok g =>
    obtain ⟨hg, hrange⟩ := (validate_ok_iff cmd g).1 hv
    cases hf.symm.trans hg
    exact absurd hrange h
  | error e =>
    cases e with
    | invalidOpcode => cases hf.symm.trans (validate_invalidOpcode_iff.1 hv)
    | operandOutOfRange => rfl

theorem formatOfCode_eq_none_iff {n : Int} : formatOfCode n = none ↔ n ∉ [29, 18, 9, 25] := by
  rcases formatOfCode_eq n with ⟨rfl, he⟩ | ⟨rfl | rfl | rfl, he⟩ | ⟨h1, h2, h3, h4, he⟩
  all_goals simp [*]

/-! ### The statements -/

/-- Settles O1: the encoded word holds the instruction's own fields, and those are in range. -/
theorem decodeOfEncodeIsIdentity : Obligations.DecodeOfEncodeIsIdentity :=
  fun rsv i => ⟨wellFormed_eq_true i, decodeWord_encodeWord rsv i, decodeChunk_encode rsv i⟩

/-- Settles O2: the bytes are the encoding of the command's instruction, which stands for that command. -/
theorem encodedCommandDecodesToItsOperands : Obligations.EncodedCommandDecodesToItsOperands :=
  fun rsv _ _ h => ⟨_, _, encodeCommand_ok h, encode_length _, decodeChunk_encode rsv _, toCommand_instrOfCommand h⟩

/-- Settles O3: re-encoding the extracted fields clears the reserved bits and nothing else. -/
theorem decodedWordIsEncodingIffReservedBitsZero : Obligations.DecodedWordIsEncodingIffReservedBitsZero := by
  refine ⟨fun rsv w i h => ?_, fun w w' hop h => ?_, fun w w' hop h => ?_⟩
  · obtain ⟨op, ho, -, rfl⟩ := decodeWord_ok h
    have hop := opcodeOfBits_eq_some_iff.1 ho
    rw [encodeWord_extractFields_eq_iff hop, reservedSet_eq_false_iff hop]
  · exact decodeWord_false_congr (op := .loadConst) (BitVec.eq_of_toNat_eq hop) h
  · cases ho : opcodeOfBits (opField w) with
    | none =>
      have hlow : opField w = opField w' := field_congr h (by decide)
      rw [decodeWord_invalid _ ho, decodeWord_invalid _ (hlow ▸ ho)]
    | some op =>
      have hcode := opcodeOfBits_eq_some_iff.1 ho
      have hformat : op.format = .R := by
        cases op with
        | loadConst => exact absurd (congrArg BitVec.toNat hcode) hop
        | readMem => rfl
        | writeMem => rfl
        | abs => rfl
      exact decodeWord_false_congr hcode (by rw [hformat]; exact h)

/-- Settles O6: a field is its masked shift, and the port gives the decoded instruction's fields. -/
theorem decodedOperandsAreMaskedShifts : Obligations.DecodedOperandsAreMaskedShifts := by
  refine fun rsv w => ⟨fun hop hr => ?_, fun op mk hmk hop hr => ?_, fun k => decoderPort_error_iff⟩
  · have hd := decodeWord_eq_extractFields (op := .loadConst) (BitVec.eq_of_toNat_eq hop) fun h =>
      reservedSet_eq_false_of_mask .I (hr h)
    exact ⟨_, _, hd, field_toNat_eq_shift_mask 6 (by decide), field_toNat_eq_shift_mask 26 (by decide), _,
      decoderPort_ok hd, rfl, rfl, rfl, rfl⟩
  · obtain ⟨o, ho, hformat, hfields, hport⟩ := exists_registerOpcode hmk
    have hd := decodeWord_eq_extractFields (BitVec.eq_of_toNat_eq (hop.trans ho.symm)) fun h => by
      rw [hformat]; exact reservedSet_eq_false_of_mask .R (hr h)
    have hp := decoderPort_ok hd
    rw [hfields] at hd
    rw [hfields, hport] at hp
    exact ⟨_, _, hd, field_toNat_eq_shift_mask 6 (by decide), field_toNat_eq_shift_mask 11 (by decide), _, hp, ho, rfl,
      setWidth_field_low _, setWidth_field_high _, rfl⟩

/-- Settles O7: RSV_CHECK is read for words with a reserved bit set only. -/
theorem reservedBitsFollowRsvCheck : Obligations.ReservedBitsFollowRsvCheck := by
  refine fun w => ⟨fun h => ?_, ?_, decodeWord_true_eq_false⟩
  · exact absurd (decodeWord_reservedBits_iff.1 h).1 (by simp)
  · rw [decodeWord_reservedBits_iff, exists_opcode_iff]
    simp [reservedSet, Opcode.format, Opcode.code, opField, ← BitVec.toNat_inj, or_and_right]

/-- Settles O9: only the chunk's length is malformed, and a word is 4 bytes. -/
theorem malformedInstructionIffNotFourBytes : Obligations.MalformedInstructionIffNotFourBytes :=
  ⟨fun _ _ => decodeChunk_malformedInstruction_iff, decodeWord_ne_malformedInstruction⟩

/-- Settles O10: the decoder evaluated on the seven chunks. -/
theorem fixtureBytesDecode : Obligations.FixtureBytesDecode := by
  unfold Obligations.FixtureBytesDecode
  decide

/-- Settles O12: a command whose opcode has a family passes or is out of range, and passing puts its operands in range. -/
theorem validationChecksOpcodeThenRange : Obligations.ValidationChecksOpcodeThenRange := by
  refine fun cmd => ⟨validate_invalidOpcode_iff.trans formatOfCode_eq_none_iff, fun hop hrange => ?_, fun hop hb => ?_⟩
  · obtain ⟨f, hf⟩ := Option.ne_none_iff_exists'.1 (mt formatOfCode_eq_none_iff.1 (not_not.2 hop))
    have hwidth : (2 : Int) ^ f.bWidth ≤ 0x100000 ∧ (2 : Int) ^ f.cWidth = 32 := by cases f <;> decide
    exact validate_outOfRange hf (by omega)
  · exact validate_outOfRange (formatOfCode_register hop) (by simp only [Format.bWidth]; omega)

end Sys2Proof
end

/-! ## The step, the causes it leaves and what it counts (40_step.md, 60_exceptions.md)

The fetched word byte by byte, the causes as an exact partition of the steps of a run that goes on, the record an ending
step writes, and the counters. -/

section
namespace Sys2Proof.Machine

variable {i : Instr} {s t : State}

/-! ### The fetch -/

/-- The assembled word gives its bytes back in code order (R36). -/
theorem bytesOfWord_wordOfBytes (b0 b1 b2 b3 : Byte) : bytesOfWord (wordOfBytes b0 b1 b2 b3) = [b0, b1, b2, b3] := by
  have hnat : (wordOfBytes b0 b1 b2 b3).toNat =
      ((b3.toNat * 2 ^ 8 + b2.toNat) * 2 ^ 8 + b1.toNat) * 2 ^ 8 + b0.toNat := by
    show (b3 ++ b2 ++ b1 ++ b0).toNat = _
    rw [toNat_append_eq, toNat_append_eq, toNat_append_eq]
  simp only [bytesOfWord, List.cons.injEq, field_eq_iff, hnat, and_true]
  omega

/-- Within the image, a code byte is the byte listed there (R30). -/
theorem getElem?_code_of_lt {a : Nat} (h : a < s.code.length) : s.code[a]? = some (s.codeByte a) := by
  rw [State.codeByte, List.getD_eq_getElem _ _ h, List.getElem?_eq_getElem h]

/-! ### The answer of a step -/

theorem exists_step_eq_next (s : State) : ∃ t, step s = .next t := by
  rcases step_cases s with ⟨-, e⟩ | ⟨-, -, e⟩ | ⟨-, -, -, e⟩ | ⟨-, -, -, e⟩ | ⟨-, _, -, e⟩ | ⟨-, _, -, -, -, e⟩ |
    ⟨-, _, -, -, e⟩
  all_goals exact ⟨_, e⟩

/-- Each cause's condition makes the step leave that cause (R73, R85). -/
theorem step_of_causeCondition {c : HaltCause} (hg : RunGoesOn s) (h : CauseCondition s c) :
    ∃ t, step s = .next t ∧ t.halt.cause = c := by
  cases c with
  | none =>
    obtain ⟨hf, i, hd, hr⟩ := h
    exact ⟨_, step_completes hf hd hr, by simpa using hg.2⟩
  | endOfProgram => exact ⟨_, step_atEnd hg h, rfl⟩
  | malformedTail => exact ⟨_, step_atTail hg h.1 h.2, rfl⟩
  | decodeError =>
    obtain ⟨hf, k, hd⟩ := h
    exact ⟨_, step_decodeError hf hd, rfl⟩
  | outOfBounds =>
    obtain ⟨hf, i, hd, hr⟩ := h
    exact ⟨_, step_outOfBounds hf hd hr, rfl⟩
  | stepCeiling => exact ⟨_, step_ceiling hg h.1 h.2, rfl⟩

/-- A step of a run that goes on leaves a cause exactly under that cause's condition. -/
theorem step_cause_eq_iff {c : HaltCause} (hg : RunGoesOn s) (h : step s = .next t) :
    t.halt.cause = c ↔ CauseCondition s c := by
  refine ⟨fun hc => hc ▸ step_causeCondition hg h, fun hcond => ?_⟩
  obtain ⟨u, hu, hc⟩ := step_of_causeCondition hg hcond
  cases h.symm.trans hu
  exact hc

/-- The two causes that are errors (R102). -/
theorem not_runSafe_iff : ¬ RunSafe t ↔ t.halt.cause = .decodeError ∨ t.halt.cause = .outOfBounds := by
  rw [RunSafe]
  cases t.halt.cause <;> simp [HaltCause.isError]

/-! ### The record of an ending step -/

/-- The kind codes of the errors a whole word can give (R100, D10). -/
theorem decodeWord_error_kindCode {rsv : Bool} {w : Word} {k : DecodeError} (h : decodeWord rsv w = .error k) :
    decodeWord rsv w = .error .invalidOpcode ∧ k.kindCode = 0 ∨
      decodeWord rsv w = .error .reservedBits ∧ k.kindCode = 2 := by
  rcases decodeWord_error_cases h with rfl | rfl
  · exact .inl ⟨h, rfl⟩
  · exact .inr ⟨h, rfl⟩

/-- A fetched instruction that raises is a READ_MEM on the address in x[C] or a WRITE_MEM on the address in x[B] (R101). -/
theorem readReg_addressReg_of_raises (hd : DecodesAtPc s i) (h : RaisesOutOfBounds i s) :
    (∃ b c, DecodesAtPc s (.readMem b c) ∧ s.readReg (addressReg i) = s.readReg c) ∨
      ∃ b c, DecodesAtPc s (.writeMem b c) ∧ s.readReg (addressReg i) = s.readReg b := by
  rcases (raisesOutOfBounds_iff i s).1 h with ⟨b, c, rfl, -⟩ | ⟨b, c, rfl, -⟩
  · exact .inl ⟨b, c, hd, rfl⟩
  · exact .inr ⟨b, c, hd, rfl⟩

/-! ### The counters -/

/-- A completed instruction counts its own access (R25, R93, R94). -/
theorem completed_cnt (i : Instr) (s : State) :
    (completed i s).cnt.mr = s.cnt.mr + (if ∃ b c, i = .readMem b c then 1 else 0) ∧
      (completed i s).cnt.mw = s.cnt.mw + (if ∃ b c, i = .writeMem b c then 1 else 0) := by
  cases i <;> simp [completed]

/-! ### The statements -/

/-- Settles O18: the fetched word is assembled from four bytes that the image lists. -/
theorem fetchedWordIsLittleEndian : Obligations.FetchedWordIsLittleEndian := by
  rintro s ⟨-, hp, -⟩ k hk
  have hbytes : bytesOfWord s.fetchWord = [0, 1, 2, 3].map fun k => s.codeByte (s.pc.toNat + k) :=
    bytesOfWord_wordOfBytes ..
  simp only [bytesOfWord, List.map_cons, List.map_nil, List.cons.injEq, and_true] at hbytes
  obtain ⟨h0, h1, h2, h3⟩ := hbytes
  rw [getElem?_code_of_lt (by omega)]
  interval_cases k
  · rw [h0]
  · rw [h1]
  · rw [h2]
  · rw [h3]

/-- Settles O19: the fetching step from the decode on, with the decoded instruction put in. -/
theorem stepRunsTheDecodedInstruction : Obligations.StepRunsTheDecodedInstruction := by
  intro s i hf hd
  have hd' : decodeWord s.cfg.rsvCheck s.fetchWord = .ok i := hd
  have h : step s = retire (exec i s.advancePc) := by rw [step_ready hf, hd']
  exact h

/-- Settles O20: every case of a step is a next state. -/
theorem everyStepAnswersANextState : Obligations.EveryStepAnswersANextState := exists_step_eq_next

/-- Settles O27: the ceiling's stop ends the run, and a run that has ended stays as it is. -/
theorem stepCeilingStopsTheRun : Obligations.StepCeilingStopsTheRun := by
  intro s hg hp hm
  have h := step_ceiling hg hp hm
  obtain ⟨hregs, hmem, hcnt, hcc⟩ := step_keeps_of_ends hg h (by simp)
  exact ⟨_, h, rfl, rfl, rfl, rfl, rfl, hregs, hmem, hcnt, hcc, steps_ended (by simp [RunGoesOn])⟩

/-- Settles O29: the record written in each of the five ending cases of a step. -/
theorem haltRecordContents : Obligations.HaltRecordContents := by
  refine ⟨fun s t hg h hc => ?_, fun rsv chunk k h => ?_⟩
  · have hfault := step_faultPc_of_ends hg h hc
    rcases step_cases s with ⟨hn, -⟩ | ⟨-, -, e⟩ | ⟨-, hp, hq, e⟩ | ⟨-, -, -, e⟩ | ⟨-, k, hd, e⟩ | ⟨-, i, hd, hr, -, e⟩ |
      ⟨-, i, -, -, e⟩
    case inl => exact absurd hg hn
    case inr.inr.inr.inr.inr.inr =>
      cases h.symm.trans e
      exact absurd (by simpa using hg.2) hc
    all_goals
      cases h.symm.trans e
      refine ⟨rfl, hfault, ?_⟩
    · simp
    · have hlt : s.code.length - s.pc.toNat < 2 ^ 32 := by omega
      simpa using hlt
    · simp
    · simpa using decodeWord_error_kindCode hd
    · exact ⟨by simp, by simp, by simp, by simp, fun _ => readReg_addressReg_of_raises hd hr⟩
  · have hmalformed : chunk.length ≠ 4 ↔ k = .malformedInstruction := by
      rw [← decodeChunk_malformedInstruction_iff (rsv := rsv), h, Except.error.injEq]
    rw [hmalformed]
    cases k <;> decide

/-- Settles O31: the two error causes, each by its condition. -/
theorem errorsAreExactlyDecodeAndBoundsFailures : Obligations.ErrorsAreExactlyDecodeAndBoundsFailures := by
  intro s hg
  obtain ⟨t, ht⟩ := exists_step_eq_next s
  refine ⟨t, ht, ?_⟩
  rw [not_runSafe_iff, step_cause_eq_iff hg ht, step_cause_eq_iff hg ht, and_or_left]
  rfl

/-- Settles O35: the completed ABS is the state itself. -/
theorem absOnlyCountsAsAStep : Obligations.AbsOnlyCountsAsAStep :=
  ⟨fun _ h => decodeWord_false_of_mask_eq_code .abs h,
    fun b c s => ⟨s, exec_abs b c s, fun _ => rfl, fun _ => rfl, rfl, rfl, ⟨rfl, rfl⟩, rfl, rfl⟩,
    fun _ _ _ hf hd => step_completes hf hd id⟩

/-- Settles O39: a step counts its completed instruction, and a step that completes none keeps the counters. -/
theorem countersCountCompletedInstructions : Obligations.CountersCountCompletedInstructions := by
  refine ⟨fun s i hf hd hr => ?_, fun s hnone => ?_⟩
  · obtain ⟨hmr, hmw⟩ := completed_cnt i s.advancePc
    exact ⟨_, step_completes hf hd hr, by simp, hmr, hmw⟩
  · obtain ⟨t, ht⟩ := exists_step_eq_next s
    rcases step_completes_or_keeps ht with ⟨i, hf, hd, hr, -⟩ | ⟨-, -, hcnt, -⟩
    · exact absurd (hnone i (nextInstr_eq_some hf hd)) hr
    · exact ⟨t, ht, hcnt⟩

end Sys2Proof.Machine
end

/-! ## The invariants (10_state.md, 20_memory.md, 40_step.md, 60_exceptions.md)

What every step keeps of data memory, pc and counters, values, and the halt record, and that a launch starts with it. -/

section
namespace Sys2Proof.Machine

variable {i : Instr} {s t : State} {cfg : RunConfig} {image : List Byte}

/-! ### What a completed instruction keeps -/

/-- A WRITE_MEM that completes stores below N (R42). -/
theorem completed_memoryCanonical (hr : ¬ RaisesOutOfBounds i s) (h : MemoryCanonical s) :
    MemoryCanonical (completed i s) := by
  obtain ⟨hwf, hbound⟩ := h
  cases i with
  | loadConst b c => exact ⟨hwf, hbound⟩
  | readMem b c => exact ⟨hwf, hbound⟩
  | writeMem b c =>
    refine ⟨Memory.write_wf _ _ hwf, fun cell hcell => ?_⟩
    rcases Memory.mem_write hcell with rfl | hold
    · exact Nat.not_le.1 hr
    · exact hbound cell hold
  | abs b c => exact ⟨hwf, hbound⟩

/-- A word of data memory is 0 or listed, so it is small where the listed words are (R20, R31). -/
theorem read_lt_of_valuesSmall (h : ValuesSmall s) (a : Nat) : (s.dmem.read a).toNat < 2 ^ 20 := by
  rcases Memory.read_mem (a := a) s.dmem with h0 | hmem
  · rw [h0]; decide
  · exact h.2 _ hmem

theorem readReg_writeReg_lt {r : RegIdx} {v : Word} (hv : v.toNat < 2 ^ 20)
    (h : ∀ q : RegIdx, (s.readReg q).toNat < 2 ^ 20) (q : RegIdx) : ((s.writeReg r v).readReg q).toNat < 2 ^ 20 := by
  rw [State.readReg_writeReg]
  split
  · exact hv
  · exact h q

/-- A new value is a 20-bit constant, a word of data memory or a register's value (R20). -/
theorem completed_valuesSmall (i : Instr) (h : ValuesSmall s) : ValuesSmall (completed i s) := by
  obtain ⟨hregs, hcells⟩ := h
  cases i with
  | loadConst b c =>
    have hb : (b.setWidth 32).toNat < 2 ^ 20 := by
      rw [BitVec.toNat_setWidth_of_le (by decide)]; exact b.isLt
    exact ⟨readReg_writeReg_lt hb hregs, hcells⟩
  | readMem b c => exact ⟨readReg_writeReg_lt (read_lt_of_valuesSmall ⟨hregs, hcells⟩ _) hregs, hcells⟩
  | writeMem b c =>
    refine ⟨hregs, fun cell hcell => ?_⟩
    rcases Memory.mem_write hcell with rfl | hold
    · exact hregs c
    · exact hcells cell hold
  | abs b c => exact ⟨hregs, hcells⟩

/-- An instruction makes at most one access (R25). -/
theorem completed_accesses_le (i : Instr) (s : State) :
    (completed i s).cnt.mr.toNat + (completed i s).cnt.mw.toNat ≤ s.cnt.mr.toNat + s.cnt.mw.toNat + 1 := by
  cases i <;> simp [completed, BitVec.toNat_add] <;> omega

/-! ### What a step keeps -/

theorem step_memoryCanonical (hs : MemoryCanonical s) (h : step s = .next t) : MemoryCanonical t := by
  rcases step_completes_or_keeps h with ⟨i, -, -, hr, rfl⟩ | ⟨-, hdmem, -, -, hcfg⟩
  · exact completed_memoryCanonical (mt (raisesOutOfBounds_advancePc i s).1 hr) hs
  · rw [MemoryCanonical, hdmem, hcfg]
    exact hs

theorem step_valuesSmall (hs : ValuesSmall s) (h : step s = .next t) : ValuesSmall t := by
  rcases step_completes_or_keeps h with ⟨i, -, -, -, rfl⟩ | ⟨hregs, hdmem, -, -⟩
  · exact completed_valuesSmall (s := s.advancePc) i hs
  · exact ⟨fun r => by rw [hregs r]; exact hs.1 r, hdmem ▸ hs.2⟩

/-- The fetch's advance stays within the image, so the pc does not wrap (R13, R22). -/
theorem advancePc_pc_toNat (hp : s.pc.toNat + 4 ≤ s.code.length) (hlen : s.code.length < 2 ^ 32) :
    (s.pc + 4).toNat = s.pc.toNat + 4 :=
  BitVec.toNat_add_of_lt (by simp; omega)

/-- The pc of a run that goes on counts its completed instructions (R22, R81). -/
theorem pc_toNat_of_goesOn (hs : PcAndCountersAgree s) (hg : RunGoesOn s) : s.pc.toNat = 4 * s.cnt.ie.toNat := by
  obtain ⟨-, -, hpc, -⟩ := hs
  simpa [hg.2, pcLead] using hpc

/-- A completed instruction counts once, without overflow (R27, R81). -/
theorem completed_countInstr_pcAndCountersAgree (i : Instr) (hf : ReadyToFetch s) (hs : PcAndCountersAgree s) :
    PcAndCountersAgree (completed i s.advancePc).countInstr := by
  have hpc := pc_toNat_of_goesOn hs hf.1
  obtain ⟨hlen, hle, -, hacc⟩ := hs
  obtain ⟨⟨-, hcause⟩, hp, -⟩ := hf
  have hadv := advancePc_pc_toNat hp hlen
  have hie : (s.cnt.ie + 1).toNat = s.cnt.ie.toNat + 1 := BitVec.toNat_add_of_lt (by simp; omega)
  have hcount := completed_accesses_le i s.advancePc
  simp only [PcAndCountersAgree, State.countInstr_code, State.countInstr_pc, State.countInstr_cnt, State.countInstr_halt,
    completed_code, completed_pc, completed_ie, completed_halt, State.advancePc_code, State.advancePc_pc,
    State.advancePc_cnt, State.advancePc_halt, hcause, pcLead, hie, hadv] at hcount ⊢
  omega

theorem step_pcAndCountersAgree (hs : PcAndCountersAgree s) (h : step s = .next t) : PcAndCountersAgree t := by
  have hpc := pc_toNat_of_goesOn hs
  have hkeep := hs
  obtain ⟨hlen, hle, -, hacc⟩ := hs
  rcases step_cases s with ⟨-, e⟩ | ⟨hg, -, e⟩ | ⟨hg, -, -, e⟩ | ⟨hg, -, -, e⟩ | ⟨hf, k, -, e⟩ | ⟨hf, i, -, -, -, e⟩ |
    ⟨hf, i, -, -, e⟩
  all_goals cases h.symm.trans e
  · exact hkeep
  · exact ⟨hlen, hle, hpc hg, hacc⟩
  · exact ⟨hlen, hle, hpc hg, hacc⟩
  · exact ⟨hlen, hle, hpc hg, hacc⟩
  · obtain ⟨hg, hp, -⟩ := hf
    have hadv := advancePc_pc_toNat hp hlen
    exact ⟨hlen, hadv.trans_le hp, hadv.trans (congrArg (· + 4) (hpc hg)), hacc⟩
  · obtain ⟨hg, hp, -⟩ := hf
    have hadv := advancePc_pc_toNat hp hlen
    exact ⟨hlen, hadv.trans_le hp, hadv.trans (congrArg (· + 4) (hpc hg)), hacc⟩
  · exact completed_countInstr_pcAndCountersAgree i hf hkeep

theorem PcAndCountersAgree.bounds (h : PcAndCountersAgree s) :
    s.pc.toNat % 4 = 0 ∧ s.cnt.ie.toNat ≤ s.code.length / 4 := by
  obtain ⟨-, hle, hpc, -⟩ := h
  have hlead : pcLead s.halt.cause % 4 = 0 := by cases s.halt.cause <;> rfl
  omega

theorem step_recordConsistent (hs : RecordConsistent s) (h : step s = .next t) : RecordConsistent t := by
  have hkeep := hs
  obtain ⟨hmax, hrecord⟩ := hs
  rcases step_cases s with ⟨-, e⟩ | ⟨hg, hend, e⟩ | ⟨hg, hp, hq, e⟩ | ⟨hg, hp, hm, e⟩ | ⟨hf, k, hd, e⟩ |
    ⟨hf, i, -, -, hoob, e⟩ | ⟨hf, i, -, -, e⟩
  all_goals cases h.symm.trans e
  · exact hkeep
  · exact ⟨hmax, rfl, rfl, rfl, rfl, hend⟩
  · have hinfo : (BitVec.ofNat 32 (s.code.length - s.pc.toNat)).toNat = s.code.length - s.pc.toNat :=
      BitVec.toNat_ofNat .. ▸ Nat.mod_eq_of_lt (by omega)
    refine ⟨hmax, rfl, rfl, rfl, ?_⟩
    simp only [State.haltMalformedTail_halt, State.haltMalformedTail_pc, State.haltMalformedTail_code, hinfo]
    omega
  · exact ⟨hmax, rfl, rfl, rfl, rfl, le_antisymm hmax hm, hp⟩
  · exact ⟨hmax, rfl, rfl, by simp, k, hd, rfl⟩
  · exact ⟨hmax, rfl, rfl, by simp, hoob⟩
  · obtain ⟨hg, -, hlt⟩ := hf
    have hie : (s.cnt.ie + 1).toNat ≤ s.cnt.ie.toNat + 1 := BitVec.toNat_add .. ▸ Nat.mod_le ..
    rw [hg.2] at hrecord
    have hhalt : (completed i s.advancePc).countInstr.halt = HaltRecord.empty := by simpa using hrecord.2
    refine ⟨?_, ?_⟩
    · simpa using hie.trans hlt
    · rw [hhalt]
      exact ⟨by simpa using hg.1, rfl⟩

/-! ### Launch -/

/-- A launch answers the reset state for exactly the legal runs (R6, R7, R119, K10). -/
theorem launch_eq_ok_iff : launch cfg image = .ok s ↔ LegalRun cfg image ∧ s = State.resetFor cfg image := by
  unfold launch LegalRun Config.codeLimit Config.maxDmemWords
  split_ifs with himage hwords
  · exact iff_of_false (by simp) (by omega)
  · exact iff_of_false (by simp) (by omega)
  · have hlegal : 1 ≤ cfg.dmemWords ∧ cfg.dmemWords ≤ 2 ^ 32 ∧ image.length < 2 ^ 32 := by omega
    simp only [hlegal, Except.ok.injEq, and_self, true_and, eq_comm]

theorem resetFor_memoryCanonical (cfg : RunConfig) (image : List Byte) : MemoryCanonical (State.resetFor cfg image) :=
  ⟨rfl, by simp [State.resetFor]⟩

theorem resetFor_pcAndCountersAgree (cfg : RunConfig) (h : image.length < 2 ^ 32) :
    PcAndCountersAgree (State.resetFor cfg image) :=
  ⟨h, Nat.zero_le _, rfl, le_rfl⟩

theorem resetFor_valuesSmall (cfg : RunConfig) (image : List Byte) : ValuesSmall (State.resetFor cfg image) :=
  ⟨fun r => by simp, by simp [State.resetFor]⟩

theorem resetFor_recordConsistent (cfg : RunConfig) (image : List Byte) : RecordConsistent (State.resetFor cfg image) :=
  ⟨Nat.zero_le _, rfl, rfl⟩

/-! ### The statements -/

/-- Settles O43: the one store of a step goes below N and keeps the list canonical. -/
theorem stepKeepsMemoryCanonical : Obligations.StepKeepsMemoryCanonical := fun _ _ => step_memoryCanonical

/-- Settles O44: the fetch's advance goes with the count of the instruction, or with the error that the lead stands for. -/
theorem stepKeepsPcAndCountersInStep : Obligations.StepKeepsPcAndCountersInStep := by
  intro s t hs h
  have ht := step_pcAndCountersAgree hs h
  obtain ⟨hlen, -⟩ := hs
  refine ⟨ht, ?_, ht.bounds⟩
  rw [step_pc h]
  split_ifs with hf
  · rw [advancePc_pc_toNat hf.2.1 hlen]
    omega
  · exact le_rfl

/-- Settles O45: constants, data words and registers are all below 2^20. -/
theorem stepKeepsValuesBelowTwoToTheTwenty : Obligations.StepKeepsValuesBelowTwoToTheTwenty :=
  fun _ _ => step_valuesSmall

/-- Settles O46: the record of each ending step, and the count below the ceiling in a completing one. -/
theorem stepKeepsHaltRecordConsistent : Obligations.StepKeepsHaltRecordConsistent := fun _ _ => step_recordConsistent

/-- Settles O15: a legal launch is the reset state, whose fields hold the reset values. -/
theorem launchGivesTheResetState : Obligations.LaunchGivesTheResetState := by
  refine ⟨fun cfg image hlegal => ?_, Config.resetMaxSteps, launch_eq_ok_iff.2 ⟨by decide, rfl⟩⟩
  exact ⟨_, launch_eq_ok_iff.2 ⟨hlegal, rfl⟩, State.resetFor_readReg cfg image, fun _ => rfl, rfl, rfl, rfl, rfl, rfl, rfl,
    rfl, rfl, rfl, rfl, rfl, rfl⟩

/-- Settles O16: the launch's two checks are those of a legal run, the image's first. -/
theorem launchRefusesIllegalConfigurations : Obligations.LaunchRefusesIllegalConfigurations := by
  refine fun cfg image => ⟨by simp [launch_eq_ok_iff], fun h => if_pos h, fun himage hwords => ?_⟩
  exact (if_neg (Nat.not_le.2 himage)).trans (if_pos hwords)

/-- Settles O47: the reset state meets each invariant, and a launch and `State.reset` are reset states. -/
theorem invariantsHoldAtLaunch : Obligations.InvariantsHoldAtLaunch := by
  have reset (cfg : RunConfig) (image : List Byte) (h : image.length < 2 ^ 32) :
      MemoryCanonical (State.resetFor cfg image) ∧ PcAndCountersAgree (State.resetFor cfg image) ∧
        ValuesSmall (State.resetFor cfg image) ∧ RecordConsistent (State.resetFor cfg image) :=
    ⟨resetFor_memoryCanonical cfg image, resetFor_pcAndCountersAgree cfg h, resetFor_valuesSmall cfg image,
      resetFor_recordConsistent cfg image⟩
  refine ⟨fun cfg image s hl => ?_, reset RunConfig.default [] (by decide)⟩
  obtain ⟨⟨-, -, himage⟩, rfl⟩ := launch_eq_ok_iff.1 hl
  exact reset cfg image himage

end Sys2Proof.Machine
end

/-! ## Runs (40_step.md, 60_exceptions.md)

The invariants after any number of steps of a launch, the completed instructions of a run that still goes on, and a run
under a smaller ceiling. -/

section
namespace Sys2Proof.Machine

variable {s t u : State} {cfg : RunConfig} {image : List Byte} {j k : Nat}

/-! ### Steps -/

/-- What every step keeps, every run keeps. -/
theorem steps_induction {P : State → Prop} (hstep : ∀ {s t : State}, P s → step s = .next t → P t) (hs : P s)
    (h : steps k s = .next t) : P t := by
  induction k generalizing s with
  | zero => cases h; exact hs
  | succ k ih =>
    obtain ⟨u, hu, hk⟩ := steps_succ_eq_next_iff.1 h
    exact ih (hstep hs hu) hk

theorem exists_steps_eq_next (k : Nat) (s : State) : ∃ t, steps k s = .next t := by
  induction k generalizing s with
  | zero => exact ⟨s, rfl⟩
  | succ k ih =>
    obtain ⟨u, hu⟩ := exists_step_eq_next s
    obtain ⟨t, ht⟩ := ih u
    exact ⟨t, steps_succ_eq_next_iff.2 ⟨u, hu, ht⟩⟩

/-- One more step at the end of a run. -/
theorem steps_succ_of_step (h : steps k s = .next t) (ht : step t = .next u) : steps (k + 1) s = .next u := by
  induction k generalizing s with
  | zero => cases h; exact steps_succ_eq_next_iff.2 ⟨u, ht, rfl⟩
  | succ k ih =>
    obtain ⟨v, hv, hk⟩ := steps_succ_eq_next_iff.1 h
    exact steps_succ_eq_next_iff.2 ⟨v, hv, ih hk⟩

/-! ### The invariants of a launched run -/

theorem launched_sameCodeAndConfig (hl : launch cfg image = .ok s) (h : steps k s = .next t) :
    t.code = image ∧ t.cfg = cfg := by
  refine steps_induction (P := fun t => t.code = image ∧ t.cfg = cfg) (fun ⟨hcode, hcfg⟩ hstep => ?_) ?_ h
  · obtain ⟨hcode', hcfg'⟩ := step_sameCodeAndConfig hstep
    exact ⟨hcode'.trans hcode, hcfg'.trans hcfg⟩
  · rw [launch_eq_ok hl]
    exact ⟨rfl, rfl⟩

theorem launched_pcAndCountersAgree (hl : launch cfg image = .ok s) (h : steps k s = .next t) : PcAndCountersAgree t := by
  obtain ⟨⟨-, -, himage⟩, rfl⟩ := launch_eq_ok_iff.1 hl
  exact steps_induction step_pcAndCountersAgree (resetFor_pcAndCountersAgree cfg himage) h

theorem launched_valuesSmall (hl : launch cfg image = .ok s) (h : steps k s = .next t) : ValuesSmall t := by
  obtain rfl := launch_eq_ok hl
  exact steps_induction step_valuesSmall (resetFor_valuesSmall cfg image) h

theorem launched_recordConsistent (hl : launch cfg image = .ok s) (h : steps k s = .next t) : RecordConsistent t := by
  obtain rfl := launch_eq_ok hl
  exact steps_induction step_recordConsistent (resetFor_recordConsistent cfg image) h

/-- A launched run that the ceiling stopped: the count, the run state, the word left and the pc (R86). -/
theorem launched_of_stepCeiling (hl : launch cfg image = .ok s) (h : steps k s = .next t)
    (hc : t.halt.cause = .stepCeiling) :
    t.cnt.ie.toNat = cfg.maxSteps ∧ cfg.maxSteps < image.length / 4 ∧ t.runState = .running ∧
      t.pc.toNat = 4 * cfg.maxSteps := by
  obtain ⟨hcode, hcfg⟩ := launched_sameCodeAndConfig hl h
  obtain ⟨-, -, hpc, -⟩ := launched_pcAndCountersAgree hl h
  obtain ⟨-, hrecord⟩ := launched_recordConsistent hl h
  rw [hc] at hrecord hpc
  obtain ⟨hrun, -, -, -, hie, hword⟩ := hrecord
  rw [hcfg] at hie
  rw [hcode] at hword
  simp only [pcLead] at hpc
  exact ⟨hie, by omega, hrun, by omega⟩

/-! ### A run that goes on -/

/-- A step after which the run goes on completed an instruction. -/
theorem step_completes_of_goesOn (h : step s = .next t) (hg : RunGoesOn t) :
    ReadyToFetch s ∧ ∃ i, DecodesAtPc s i ∧ ¬ RaisesOutOfBounds i s ∧ t = (completed i s.advancePc).countInstr := by
  have hs : RunGoesOn s := by
    by_contra hn
    cases h.symm.trans (step_ended hn)
    exact hn hg
  obtain ⟨hf, i, hd, hr⟩ : CauseCondition s .none := (step_cause_eq_iff hs h).1 hg.2
  exact ⟨hf, i, hd, hr, Host.Outcome.next.inj (h.symm.trans (step_completes hf hd hr))⟩

/-- A run that goes on later went on before. -/
theorem runGoesOn_of_steps (h : steps k s = .next t) (hg : RunGoesOn t) : RunGoesOn s := by
  by_contra hn
  cases h.symm.trans (steps_ended hn k)
  exact hn hg

/-- While a run goes on, each step completes one instruction (R81, R85). -/
theorem steps_ie_of_goesOn (h : steps k s = .next t) (hg : RunGoesOn t) : t.cnt.ie = s.cnt.ie + BitVec.ofNat 32 k := by
  induction k generalizing s with
  | zero => cases h; simp
  | succ k ih =>
    obtain ⟨u, hu, hk⟩ := steps_succ_eq_next_iff.1 h
    obtain ⟨-, i, -, -, rfl⟩ := step_completes_of_goesOn hu (runGoesOn_of_steps hk hg)
    rw [ih hk]
    simp [BitVec.ofNat_add, BitVec.add_assoc, BitVec.add_comm 1#32]

/-- A launched run that goes on after `k` steps has completed `k` instructions. -/
theorem launched_ie_of_goesOn (hl : launch cfg image = .ok s) (h : steps k s = .next t) (hg : RunGoesOn t)
    (hk : k < 2 ^ 32) : t.cnt.ie.toNat = k := by
  have hie := steps_ie_of_goesOn h hg
  obtain rfl := launch_eq_ok hl
  rw [hie]
  simpa [State.resetFor] using hk

/-! ### A smaller ceiling -/

/-- The state with another step ceiling. -/
def State.withCeiling (s : State) (k : Nat) : State := { s with cfg := { s.cfg with maxSteps := k } }

theorem completed_withCeiling (i : Instr) (s : State) (k : Nat) :
    completed i (s.withCeiling k) = (completed i s).withCeiling k := by cases i <;> rfl

theorem raisesOutOfBounds_withCeiling (i : Instr) (s : State) (k : Nat) :
    RaisesOutOfBounds i (s.withCeiling k) ↔ RaisesOutOfBounds i s := by cases i <;> rfl

/-- Below both ceilings a step that completes does the same under either (R85). -/
theorem step_withCeiling (h : step s = .next t) (hg : RunGoesOn t) (hk : s.cnt.ie.toNat < k) :
    step (s.withCeiling k) = .next (t.withCeiling k) := by
  obtain ⟨⟨hs, hp, -⟩, i, hd, hr, rfl⟩ := step_completes_of_goesOn h hg
  have hstep := step_completes (s := s.withCeiling k) ⟨hs, hp, hk⟩ hd (mt (raisesOutOfBounds_withCeiling i s k).1 hr)
  exact hstep.trans (congrArg (fun u => Host.Outcome.next u.countInstr) (completed_withCeiling i s.advancePc k))

/-- The steps of a run that goes on are the same under every ceiling that they do not reach (R85). -/
theorem steps_withCeiling (h : steps j s = .next t) (hg : RunGoesOn t) (hk : s.cnt.ie.toNat + j ≤ k) :
    steps j (s.withCeiling k) = .next (t.withCeiling k) := by
  induction j generalizing s with
  | zero => cases h; rfl
  | succ j ih =>
    obtain ⟨u, hu, hj⟩ := steps_succ_eq_next_iff.1 h
    have hug := runGoesOn_of_steps hj hg
    have hie : u.cnt.ie.toNat ≤ s.cnt.ie.toNat + 1 := by
      rw [steps_ie_of_goesOn (k := 1) (steps_succ_eq_next_iff.2 ⟨u, hu, rfl⟩) hug, BitVec.toNat_add]
      exact Nat.mod_le ..
    exact steps_succ_eq_next_iff.2 ⟨_, step_withCeiling hu hug (by omega), ih hj (by omega)⟩

/-! ### The statements -/

/-- Settles O49: the invariants of a launched run. -/
theorem everyRunStaysWithinBounds : Obligations.EveryRunStaysWithinBounds := by
  intro cfg image s t k hl h
  obtain ⟨hcode, -⟩ := launched_sameCodeAndConfig hl h
  have hpc := launched_pcAndCountersAgree hl h
  have hvalues := launched_valuesSmall hl h
  obtain ⟨haligned, hie⟩ := hpc.bounds
  obtain ⟨hlen, hle, -, hacc⟩ := hpc
  rw [hcode] at hlen hle hie
  exact ⟨hacc, hie, by omega, haligned, hle, hvalues.1, read_lt_of_valuesSmall hvalues⟩

/-- Settles O50: the record of a stop at the ceiling. -/
theorem ceilingStopsAtExactlyTheCount : Obligations.CeilingStopsAtExactlyTheCount :=
  fun _ _ _ _ _ => launched_of_stepCeiling

/-- Settles O48: a run that went on after floor(L / 4) + 1 steps would have completed more words than there are. -/
theorem everyRunEnds : Obligations.EveryRunEnds := by
  intro cfg image hlegal
  have hl : launch cfg image = .ok (State.resetFor cfg image) := launch_eq_ok_iff.2 ⟨hlegal, rfl⟩
  obtain ⟨t, h⟩ := exists_steps_eq_next (image.length / 4 + 1) (State.resetFor cfg image)
  obtain ⟨-, -, himage⟩ := hlegal
  obtain ⟨hcode, hcfg⟩ := launched_sameCodeAndConfig hl h
  have hie : t.cnt.ie.toNat ≤ image.length / 4 := hcode ▸ (launched_pcAndCountersAgree hl h).bounds.2
  have hmax : t.cnt.ie.toNat ≤ cfg.maxSteps := hcfg ▸ (launched_recordConsistent hl h).1
  have hended : ¬ RunGoesOn t := fun hg => by
    have := launched_ie_of_goesOn hl h hg (by omega)
    omega
  refine ⟨t, by rw [run, hl, ← h]; rfl, hended, step_ended hended, hie, hmax, fun hlarge hc => ?_⟩
  obtain ⟨-, hsmall, -⟩ := launched_of_stepCeiling hl h hc
  omega

/-- Settles O51: under the ceiling k the first k steps are the same, and the next one stops with a whole word left. -/
theorem ceilingRunIsAPrefix : Obligations.CeilingRunIsAPrefix := by
  intro cfg image s s' t k hl hl' hk hword h hg
  have hs' : s' = s.withCeiling k := by rw [launch_eq_ok hl, launch_eq_ok hl']; rfl
  have hzero : s.cnt.ie.toNat = 0 := by rw [launch_eq_ok hl]; rfl
  obtain ⟨hcode, -⟩ := launched_sameCodeAndConfig hl h
  have hagree := launched_pcAndCountersAgree hl h
  have hpc := pc_toNat_of_goesOn hagree hg
  obtain ⟨hlen, -⟩ := hagree
  rw [hcode] at hlen
  have hie := launched_ie_of_goesOn hl h hg (by omega)
  have hsteps := steps_withCeiling h hg (k := k) (by omega)
  have hleft : t.pc.toNat + 4 ≤ t.code.length := by rw [hcode]; omega
  have hstop := step_ceiling (s := t.withCeiling k) hg hleft hie.ge
  rw [← hs'] at hsteps
  exact ⟨_, steps_succ_of_step hsteps hstop, rfl, rfl, rfl, rfl, rfl, hg.1.symm, hie⟩

/-- Settles O55: the natural ends leave the pc, a multiple of 4, at L or 1 to 3 bytes below it. -/
theorem lenWarningForetellsTheMalformedTail : Obligations.LenWarningForetellsTheMalformedTail := by
  intro cfg image s t k hl h
  obtain ⟨hcode, -⟩ := launched_sameCodeAndConfig hl h
  have hagree := launched_pcAndCountersAgree hl h
  obtain ⟨haligned, -⟩ := hagree.bounds
  obtain ⟨-, hle, -⟩ := hagree
  obtain ⟨-, hrecord⟩ := launched_recordConsistent hl h
  rw [hcode] at hle
  refine ⟨fun hc => ?_, fun hc => ?_⟩
  · rw [hc, hcode] at hrecord
    obtain ⟨-, -, -, htail, hlow, hhigh⟩ := hrecord
    rw [lenWarning, bne_iff_ne]
    omega
  · rw [hc, hcode] at hrecord
    obtain ⟨-, -, -, -, hend⟩ := hrecord
    rw [lenWarning, bne_eq_false_iff_eq]
    omega

end Sys2Proof.Machine
end

/-! ## The host's readout (60_exceptions.md, 42_register_family.md)

The snapshot's lists, the halt codes, and the notice of an ABS. -/

section
namespace Sys2Proof.Machine

variable {s t : State}

/-! ### The snapshot -/

theorem mem_snapshotRegs_iff {n : Nat} {v : Word} :
    (n, v) ∈ snapshotRegs s ↔ ∃ r : RegIdx, r.toNat = n ∧ s.readReg r = v ∧ v ≠ 0 := by
  simp only [snapshotRegs, List.mem_filterMap, List.mem_range, Option.ite_none_left_eq_some, Option.some.injEq,
    Prod.mk.injEq]
  constructor
  · rintro ⟨m, hm, hne, rfl, rfl⟩
    exact ⟨BitVec.ofNat 5 m, by rw [BitVec.toNat_ofNat, Nat.mod_eq_of_lt hm], rfl, hne⟩
  · rintro ⟨r, rfl, rfl, hne⟩
    exact ⟨r.toNat, r.isLt, by simpa using hne⟩

/-- The registers are listed by rising number (D13). -/
theorem snapshotRegs_pairwise (s : State) : (snapshotRegs s).Pairwise fun x y => x.1 < y.1 := by
  refine List.pairwise_lt_range.filterMap _ fun m n hlt x hx y hy => ?_
  simp only [Option.ite_none_left_eq_some, Option.some.injEq] at hx hy
  obtain ⟨-, rfl⟩ := hx
  obtain ⟨-, rfl⟩ := hy
  exact hlt

theorem mem_snapshotCells_iff {first limit : Word} {a : Nat} {v : Word} (h : s.dmem.wf = true) :
    (a, v) ∈ snapshotCells s first limit ↔
      first.toNat ≤ a ∧ a < limit.toNat ∧ a < s.cfg.dmemWords ∧ s.dmem.read a = v ∧ v ≠ 0 := by
  simp only [snapshotCells, List.mem_filter, Memory.mem_iff_read h, Bool.and_eq_true, decide_eq_true_eq]
  tauto

/-- An empty range lists no cell (R113). -/
theorem snapshotCells_eq_nil {first limit : Word} (h : limit.toNat ≤ first.toNat) : snapshotCells s first limit = [] := by
  simp only [snapshotCells, List.filter_eq_nil_iff, Bool.and_eq_true, decide_eq_true_eq]
  omega

/-! ### The outcome -/

/-- The codes tell the causes apart (R102). -/
theorem HaltCause.code_inj {c c' : HaltCause} : c.code = c'.code ↔ c = c' := by
  cases c <;> cases c' <;> decide

/-- The natural ends are the ones with fewer than 4 bytes left (R88, D9). -/
theorem haltedNormally_iff {c : HaltCause} : haltedNormally c = true ↔ c = .endOfProgram ∨ c = .malformedTail := by
  cases c <;> decide

/-- A step leaves a run going on exactly when it leaves no cause (R102). -/
theorem step_runGoesOn_iff (hg : RunGoesOn s) (h : step s = .next t) : RunGoesOn t ↔ t.halt.cause = .none := by
  refine ⟨And.right, fun hc => ⟨?_, hc⟩⟩
  obtain ⟨hf, i, hd, hr⟩ : CauseCondition s .none := (step_cause_eq_iff hg h).1 hc
  cases h.symm.trans (step_completes hf hd hr)
  simpa using hg.1

/-! ### The notice of an ABS -/

theorem absNotice_iff : absNotice s = true ↔ ReadyToFetch s ∧ ∃ b c, DecodesAtPc s (.abs b c) := by
  rw [absNotice, Bool.and_eq_true, willFetch_iff]
  refine and_congr_right fun _ => ?_
  unfold DecodesAtPc
  cases decodeWord s.cfg.rsvCheck s.fetchWord with
  | error k => simp
  | ok i => cases i <;> simp

/-! ### The statements -/

/-- Settles O52: both lists are filters of rising lists. -/
theorem snapshotListsExactlyTheNonZeroState : Obligations.SnapshotListsExactlyTheNonZeroState :=
  fun s _ _ hwf => ⟨fun _ _ => mem_snapshotRegs_iff, snapshotRegs_pairwise s, fun _ _ => mem_snapshotCells_iff hwf,
    (Memory.pairwise_of_wfFrom hwf).2.filter _, snapshotCells_eq_nil, rfl, rfl, rfl, rfl, rfl⟩

/-- Settles O53: the code names the cause, and the cause its condition. -/
theorem outcomeReportsTheEnd : Obligations.OutcomeReportsTheEnd := by
  have code (s : State) (c : HaltCause) : (outcome s).haltCause = c.code ↔ s.halt.cause = c := HaltCause.code_inj
  refine ⟨fun s => ⟨code s .none, code s .endOfProgram, code s .malformedTail, code s .decodeError, code s .outOfBounds,
    code s .stepCeiling⟩, fun s hg => ?_⟩
  obtain ⟨t, h⟩ := exists_step_eq_next s
  have ends (c : HaltCause) : (outcome t).haltCause = c.code ↔ CauseCondition s c :=
    (code t c).trans (step_cause_eq_iff hg h)
  refine ⟨t, h, ?_, decide_eq_true_iff, (code t .none).trans (step_runGoesOn_iff hg h).symm, ends .endOfProgram,
    ends .malformedTail, ends .decodeError, ends .outOfBounds, ends .stepCeiling, rfl, rfl, rfl, rfl, rfl⟩
  rw [outcome, haltedNormally_iff, step_cause_eq_iff hg h, step_cause_eq_iff hg h]
  simp only [CauseCondition]
  omega

/-- Settles O54: the noticed step completes an ABS, which counts itself and nothing else. -/
theorem absNoticePulsesExactlyOnAbs : Obligations.AbsNoticePulsesExactlyOnAbs := by
  refine fun s => ⟨absNotice_iff, fun h => ?_⟩
  obtain ⟨hf, b, c, hd⟩ := absNotice_iff.1 h
  exact ⟨_, step_completes hf hd id, fun _ => rfl, fun _ => rfl, ⟨rfl, rfl⟩, rfl, rfl, rfl⟩

end Sys2Proof.Machine
end
